-- ==== Sys2Proof/Word.lean ====
section
/-! DEFINITION. The word types of the codec block: a byte of the codeword buffer and of the data buses, the
16-bit command and report word, and the command word's two fields. -/

namespace Sys2Proof

/-- A byte `CWB[b]` of the codeword buffer, or one lane of DIN or DOUT (R21, R66, R76). -/
abbrev Byte := BitVec 8

/-- A 16-bit word: the command word CMD (R61) or the report word RPT (R72). -/
abbrev Word := BitVec 16

end Sys2Proof
end

