-- ==== Sys2Proof/Syntax.lean ====
section
/-! DEFINITION. The commands of the block: one constructor per row of the opcode table (R63, R64). -/

namespace Sys2Proof

/-- The four commands. ARG is an unsigned number used as it stands (R62); ENCODE's data bytes are not part of the
command word, they come on DIN (R66). -/
inductive Instr where
  /-- ENCODE: build the codeword of `len` data bytes (R130). -/
  | encode (len : Nat)
  /-- DIAG: diagnose the codeword and correct a single-bit error (R150). -/
  | diag
  /-- DECODE: return the data bytes held at the data indices (R160). -/
  | decode
  /-- FLIP: toggle the codeword bit `index` (R96). -/
  | flip (index : Nat)
  deriving DecidableEq, Repr

end Sys2Proof
end

