-- ==== Sys2Proof/WellFormed.lean ====
section
/-! DEFINITION. Which commands a command word can express: ARG has 12 bits (R61, R62). -/

namespace Sys2Proof

/-- The operand fits the 12-bit ARG field, "0 to 4095" (R62). DIAG and DECODE have no operand. -/
def Instr.wellFormed : Instr → Bool
  | .encode len => decide (len < 4096)
  | .diag => true
  | .decode => true
  | .flip index => decide (index < 4096)

/-- `Instr.wellFormed` as a proposition. -/
abbrev Instr.WellFormed (i : Instr) : Prop := i.wellFormed = true

end Sys2Proof
end

