-- ==== Sys2Proof/Decode.lean ====
section
/-! DEFINITION. The decoder of the 16-bit command word, total and rejecting by name (R61 to R65), and the encoder
written from the same opcode map (R63). -/

namespace Sys2Proof

/-- Why a command word is illegal (R65). -/
inductive IllegalWord where
  /-- OPC is 0x0 or 0x5 to 0xF. -/
  | noSuchOpcode
  /-- DIAG (OPC 0x2) with ARG != 0. -/
  | diagWithArgument
  /-- DECODE (OPC 0x3) with ARG != 0. -/
  | decodeWithArgument
  deriving DecidableEq, Repr

/-- `OPC = CMD[15:12]` (R61). -/
def opcOf (w : Word) : Nat := w.toNat / 4096

/-- `ARG = CMD[11:0]`, unsigned (R61, R62). -/
def argOf (w : Word) : Nat := w.toNat % 4096

/-- The opcode map (R63) with the illegal words of R65. -/
def decode (w : Word) : Except IllegalWord Instr :=
  match opcOf w with
  | 1 => .ok (.encode (argOf w))
  | 2 => if argOf w = 0 then .ok .diag else .error .diagWithArgument
  | 3 => if argOf w = 0 then .ok .decode else .error .decodeWithArgument
  | 4 => .ok (.flip (argOf w))
  | _ => .error .noSuchOpcode

/-- The C format: OPC in bits 15:12, ARG in bits 11:0 (R61). -/
def formatC (opc arg : Nat) : Word := BitVec.ofNat 4 opc ++ BitVec.ofNat 12 arg

/-- The command word of a well-formed command (R63). -/
def encode : Instr → Word
  | .encode len => formatC 1 len
  | .diag => formatC 2 0
  | .decode => formatC 3 0
  | .flip index => formatC 4 index

/-- The command the decoder reads from a table word: one 16-bit word, bit 0 its least significant bit (R11, R61). -/
def decodeTableWord (_nbits w : Nat) : Option Instr :=
  if w < 65536 then (decode (BitVec.ofNat 16 w)).toOption else none

end Sys2Proof
end

