-- ==== Sys2Proof/Config.lean ====
section
/-! DEFINITION. What is fixed when a codec block is built (the one open parameter of the spec, R7), the response
tuple whose widths the interface fixes (R60, R70), and the one free value (R208, U11). -/

namespace Sys2Proof

/-- The build-time configuration (R7, R10: "There are no other parameters"). -/
structure Config where
  /-- `MAX_DATA_BYTES`, the largest number of data bytes one ENCODE accepts (R7, decision D1). -/
  maxDataBytes : Nat
  deriving DecidableEq, Repr

/-- The range of the open parameter: `1 <= MAX_DATA_BYTES <= 510` (R7). -/
abbrev Config.Admissible (c : Config) : Prop :=
  1 ≤ c.maxDataBytes ∧ c.maxDataBytes ≤ 510

/-- The reference configuration, `MAX_DATA_BYTES = 30` (R7, decision D1). -/
def Config.reference : Config := ⟨30⟩

/-- The response (FAULT, RPT, DOUT_LEN, DOUT) of one transaction (R60, R70): an output, not state of the block. -/
structure Response where
  /-- FAULT, 3 bits: 0 when the command completed (R71). -/
  fault : BitVec 3
  /-- RPT, the 16-bit report word (R72). -/
  rpt : Word
  /-- DOUT_LEN, 9 bits: the number of valid bytes in DOUT (R76). -/
  doutLen : BitVec 9
  /-- DOUT, its `MAX_DATA_BYTES` byte lanes, byte `k` being `DOUT[8k+7:8k]` (R76). -/
  dout : List Byte
  deriving DecidableEq, Repr

/-- FREE VALUE. The response, if any, of a command that a reset cuts across: "any value, to be ignored" (R208,
U11). Its argument counts such cuts, so that no two of them are tied together. It has no body. -/
opaque Config.cutResponse : Nat → Option Response

end Sys2Proof
end

