-- ==== Sys2Proof/Machine/State.lean ====
section
/-! DEFINITION. The state: the codeword buffer CW and the register DBC, which are the block's whole state (R20), the
build parameter, and the transaction-level interface through which a host drives the block (R60). -/

namespace Sys2Proof.Machine

/-- The codeword buffer as (byte address, byte) pairs in canonical form: addresses strictly rising and no entry equal
to 0x00, which an unlisted address reads as (the reset contents, R33). -/
abbrev Memory := List Host.Cell

/-- What the host does at its side of the interface (R60, R200, R206, R212), one action a step. -/
inductive HostAction where
  /-- A command transaction: the word on CMD and the byte lanes of DIN, lane `k` being `DIN[8k+7:8k]`. -/
  | command (cmd : Word) (din : List Byte)
  /-- RST between commands (R200). -/
  | reset
  /-- RST while the command on CMD is in progress (R208). -/
  | resetDuring (cmd : Word) (din : List Byte)
  /-- A second command word presented before the first has responded, which the host must not do (R206). -/
  | overlap (first second : Word)
  deriving DecidableEq, Repr

/-- The state of the block and of its interface. -/
structure State where
  /-- The build-time parameter (R7, R32). It is carried here so that one machine stands for every build. No step
  changes it (R201). -/
  config : Config
  /-- CW, the codeword buffer (R21). -/
  cw : Memory
  /-- DBC, the 12-bit data-bit-count register, 0 when the block is Empty (R22, R23). -/
  dbc : BitVec 12
  /-- INTERFACE. The byte lanes of DIN in the transaction being performed (R66). A lane not listed carries 0x00. -/
  din : List Byte
  /-- INTERFACE. What the host does next, in the order it does it (R50). The block has no queue: one action is taken
  a step, and the next only after the response of the one before (R206). -/
  pending : List HostAction
  /-- INTERFACE. The responses the host has received, oldest first (R204). No step reads them (R28). -/
  responses : List Response
  /-- THE MODEL'S OWN. How many free responses have been drawn (R208, `Config.cutResponse`). -/
  cuts : Nat
  deriving DecidableEq, Repr

/-- Why the model stops. The block itself never stops: what the spec calls a fault is a response with FAULT != 0
after which the block is ready for the next command (R177, R178). -/
inductive Fault where
  /-- Raised by FLIP, DIAG and DECODE when DBC calls for a codeword longer than the buffer, so that a byte outside
  `CWB[0]` to `CWB[CW_BYTES-1]` would be touched. Such a byte does not exist (R13, R21). No state that a run reaches
  is of this kind (R25). SAFE: nothing can be proved of what follows. -/
  | outsideBuffer
  deriving DecidableEq, Repr

/-- Why a step has no meaning. -/
inductive Refusal where
  /-- Raised by no arm at present: the rejection by name of an instruction without a meaning. SAFE. -/
  | notModelled (mnemonic : String)
  /-- Raised by the step when the host presents a command before the previous one has responded: "a model gives such a
  step no meaning (refuses it)" (R206, decision D24). SAFE. -/
  | overlappingCommands
  deriving DecidableEq, Repr

/-- The state right after reset of a block built with configuration `c` (R33), with no host action waiting. -/
def State.resetOf (c : Config) : State where
  config := c
  cw := []
  dbc := 0
  din := []
  pending := []
  responses := []
  cuts := 0

/-- The state right after reset in the reference configuration (R7, R33). -/
def State.reset : State := State.resetOf Config.reference

end Sys2Proof.Machine
end

