-- ==== Sys2Proof/Machine/Operands.lean ====
section
/-! DEFINITION. The operand forms: bit indices and what they hold (R41 to R43, R92), and the data bits on DIN (R45,
R66). ARG itself is the decoder's (R62). -/

namespace Sys2Proof.Machine

/-- `isPowerOfTwo(n)`: `(n & (n - 1)) = 0`, and true for 0 (R92). -/
def isPowerOfTwo (n : Nat) : Bool := n == 0 || (n &&& (n - 1)) == 0

/-- A data index is one that is not reserved (R16, R42). -/
def isDataIndex (i : Nat) : Bool := !isPowerOfTwo i

/-- The data indices below `t`, in ascending order (R42). -/
def dataIndicesBelow (t : Nat) : List Nat := (List.range t).filter isDataIndex

/-- `pos(n)`: "the (n+1)-th data index in ascending order" (R43). It lies below `2n + 4`. -/
def pos (n : Nat) : Nat := (dataIndicesBelow (2 * n + 4)).getD n 0

/-- `rank(i)`: for a data index `i`, the number of data indices below it (R43). -/
def rank (i : Nat) : Nat := i - i.log2 - 2

/-- Data bit `n` of a byte sequence: `bitk(d[n div 8], n mod 8)` (R45). -/
def dataBit (d : List Byte) (n : Nat) : Bool := (d.getD (n / 8) 0).getLsbD (n % 8)

end Sys2Proof.Machine
end

