-- ==== Sys2Proof/Machine/Sizes.lean ====
section
/-! DEFINITION. The Size Calculator (R110 to R114), the derived parameters of a build (R8) and the admitted data
lengths (R10). -/

namespace Sys2Proof.Machine

/-- `P(D)`, the parity bit count: `floor_log2(D) + 2`, and 0 for `D = 0` (R24, R110). -/
def parityCount (d : Nat) : Nat := if d = 0 then 0 else d.log2 + 2

/-- `T(D) = D + P(D)`, the total bit count (R24, R111). -/
def totalCount (d : Nat) : Nat := d + parityCount d

/-- `BL(D) = ceil_div(T(D), 8)`, the byte length (R24, R112). -/
def byteLength (d : Nat) : Nat := (totalCount d + 7) / 8

/-- `sizes(D)`: the Size Calculator as a whole, `none` standing for its InvalidInput (R113). -/
def sizes (d : Nat) : Option (Nat × Nat × Nat) :=
  if d = 0 then none else some (parityCount d, totalCount d, byteLength d)

/-- `D >= 1` is well-sized when exactly `D` data indices lie below `T(D)` (R114). -/
def wellSized (d : Nat) : Bool := decide (1 ≤ d) && (dataIndicesBelow (totalCount d)).length == d

/-- `MAX_DBC = 8 * MAX_DATA_BYTES` (R8). -/
def maxDbc (c : Config) : Nat := 8 * c.maxDataBytes

/-- `CW_BYTES = BL(MAX_DBC)`, the size of the codeword buffer in bytes (R8). -/
def cwBytes (c : Config) : Nat := byteLength (maxDbc c)

/-- `CW_BITS = 8 * CW_BYTES` (R8). -/
def cwBits (c : Config) : Nat := 8 * cwBytes c

/-- `MAX_T = T(MAX_DBC)`, the largest total bit count (R8). -/
def maxTotal (c : Config) : Nat := totalCount (maxDbc c)

/-- `MAX_P = P(MAX_DBC)`, the largest parity bit count (R8). -/
def maxParity (c : Config) : Nat := parityCount (maxDbc c)

/-- A data length is admitted when `1 <= len <= MAX_DATA_BYTES` and `8 * len` is well-sized (R10). -/
abbrev Admitted (c : Config) (len : Nat) : Prop :=
  1 ≤ len ∧ len ≤ c.maxDataBytes ∧ wellSized (8 * len) = true

end Sys2Proof.Machine
end

