-- ==== Sys2Proof/Machine/Flags.lean ====
section
/-! DEFINITION. The block has no flags (R28). What stands in their place is computed anew for each response: the fault
codes (R71), the five statuses and the decision table (R73, R144), the report word (R72, R145), and the response tuples
(R70, R75). -/

namespace Sys2Proof.Machine

/-- The four faults (R170). -/
inductive FaultKind where
  /-- Raised by ENCODE (R171). -/
  | invalidInput
  /-- Raised by DIAG, DECODE and FLIP on an Empty block (R172). -/
  | emptyObject
  /-- Raised by FLIP and DIAG (R173). -/
  | indexOutOfRange
  /-- Raised by every illegal command word (R174). -/
  | illegalCommand
  deriving DecidableEq, Repr

/-- The FAULT codes (R71). -/
def FaultKind.code : FaultKind → BitVec 3
  | .invalidInput => 1
  | .emptyObject => 2
  | .indexOutOfRange => 3
  | .illegalCommand => 4

/-- The five statuses of a diagnosis (R73). -/
inductive Status where
  | noError
  | masterParityBitError
  | parityBitError
  | dataBitError
  | multiBitError
  deriving DecidableEq, Repr

/-- The STATUS codes (R73). -/
def Status.code : Status → BitVec 3
  | .noError => 0
  | .masterParityBitError => 1
  | .parityBitError => 2
  | .dataBitError => 3
  | .multiBitError => 4

/-- The decision table: the status as a function of the syndrome and the overall parity (R144). -/
def classify (syndrome : Nat) (even : Bool) : Status :=
  if syndrome = 0 then (if even then .noError else .masterParityBitError)
  else if even then .multiBitError
  else if isPowerOfTwo syndrome then .parityBitError
  else .dataBitError

/-- CORRECTED: false for MultiBitError only (R145). -/
def Status.corrected : Status → Bool
  | .multiBitError => false
  | .noError | .masterParityBitError | .parityBitError | .dataBitError => true

/-- The report word `{STATUS[2:0], CORRECTED, SYNDROME[11:0]}` (R72). -/
def reportWord (st : Status) (syndrome : Nat) : Word :=
  st.code ++ BitVec.ofBool st.corrected ++ BitVec.ofNat 12 syndrome

/-- DOUT with every lane zero (R75). -/
def zeroDout (c : Config) : List Byte := List.replicate c.maxDataBytes 0

/-- The response of a faulting command: the code, and every other field zero (R70, R177). -/
def faultResponse (c : Config) (k : FaultKind) : Response := ⟨k.code, 0, 0, zeroDout c⟩

/-- The response of a completed ENCODE or FLIP: every field zero (R75). -/
def plainResponse (c : Config) : Response := ⟨0, 0, 0, zeroDout c⟩

/-- The response of a completed DIAG: the report (R72, R75). -/
def reportResponse (c : Config) (st : Status) (syndrome : Nat) : Response :=
  ⟨0, reportWord st syndrome, 0, zeroDout c⟩

/-- The response of a completed DECODE: the bytes in the low lanes of DOUT, the lanes above them zero (R75, R76). -/
def dataResponse (c : Config) (out : List Byte) : Response :=
  ⟨0, 0, BitVec.ofNat 9 out.length, out ++ List.replicate (c.maxDataBytes - out.length) 0⟩

end Sys2Proof.Machine
end

