-- ==== Sys2Proof/Machine/Ops.lean ====
section
/-! DEFINITION. The named operations: bytes of the codeword buffer, its bits (the Bit-Plane Utility, R90 to R95), the
updates of the state, taking a fault (R177) and responding (R70), reset (R200, R208), and the status outputs (R74). -/

namespace Sys2Proof.Machine

/-! ## The codeword buffer as bytes -/

/-- What a byte that the list does not hold reads as: the reset contents (R33). -/
def unlistedByte : Byte := 0

/-- `MemRead(b, 1) = CWB[b]` (R13, R14). -/
def Memory.readByte : Memory → Nat → Byte
  | [], _ => unlistedByte
  | (a, v) :: rest, b => if a = b then v else Memory.readByte rest b

/-- `MemWrite(b, 1, v)`: `CWB[b] <- v` (R14), keeping the canonical form. -/
def Memory.writeByte : Memory → Nat → Byte → Memory
  | [], b, v => if v = unlistedByte then [] else [(b, v)]
  | (a, x) :: rest, b, v =>
    if b < a then (if v = unlistedByte then (a, x) :: rest else (b, v) :: (a, x) :: rest)
    else if b = a then (if v = unlistedByte then rest else (b, v) :: rest)
    else (a, x) :: Memory.writeByte rest b v

/-- The canonical form from address `lo` up: addresses strictly rising, no entry that an unlisted one would equal. -/
def Memory.wfFrom : Nat → Memory → Bool
  | _, [] => true
  | lo, (a, v) :: rest => decide (lo ≤ a) && v != unlistedByte && Memory.wfFrom (a + 1) rest

/-- The canonical form of the codeword buffer. -/
def Memory.wf (m : Memory) : Bool := Memory.wfFrom 0 m

/-! ## Bits (the Bit-Plane Utility) -/

/-- `getBit(byte, offset)`: whether bit `offset` of `byte` is 1, offset 0 the least significant (R90, R41). -/
def getBit (byte : Byte) (offset : Nat) : Bool := byte.getLsbD offset

/-- `setBit(byte, offset, value)`: no-op outside the stated domains, else the byte with that bit written (R91). -/
def setBit (byte : Byte) (offset value : Nat) : Byte :=
  if 8 ≤ offset ∨ 2 ≤ value then byte
  else (byte &&& ~~~(1#8 <<< offset)) ||| (BitVec.ofNat 8 value <<< offset)

/-- `cwGet(i) = CW[i]`: byte `i div 8`, offset `i mod 8` (R41, R93). -/
def cwGet (m : Memory) (i : Nat) : Bool := getBit (m.readByte (i / 8)) (i % 8)

/-- `cwSet(i, v)`: `CW[i] <- v` (R41, R93). -/
def cwSet (m : Memory) (i : Nat) (v : Bool) : Memory :=
  m.writeByte (i / 8) (setBit (m.readByte (i / 8)) (i % 8) v.toNat)

/-- `flipBit(index)`: toggle one bit (R95). The range check is the caller's. -/
def flipBit (m : Memory) (i : Nat) : Memory := cwSet m i (!cwGet m i)

/-! ## Updates of the state -/

/-- `CW <- m`. -/
def State.setCw (s : State) (m : Memory) : State := { s with cw := m }

/-- `DBC <- d`. -/
def State.setDbc (s : State) (d : BitVec 12) : State := { s with dbc := d }

/-- Give the host the response of the transaction (R60, R70). -/
def State.addResponse (s : State) (r : Response) : State := { s with responses := s.responses ++ [r] }

/-- Present the next transaction: DIN carries `din`, and `rest` is what the host does afterwards (R50, R66). -/
def State.present (s : State) (din : List Byte) (rest : List HostAction) : State :=
  { s with din := din, pending := rest }

/-- Take an action that drives no DIN off the host's list (R50). -/
def State.setPending (s : State) (rest : List HostAction) : State := { s with pending := rest }

/-- `T(DBC)`, derived and not stored (R24). -/
def State.total (s : State) : Nat := totalCount s.dbc.toNat

/-- `P(DBC)`, derived and not stored (R24). -/
def State.parity (s : State) : Nat := parityCount s.dbc.toNat

/-! ## Ending a command -/

/-- `respond(...)`: the command completes with response `r` (R14, R70). -/
def respond (r : Response) (s : State) : Host.Outcome State Fault Refusal := .next (s.addResponse r)

/-- `raise F`: taking a fault. CW and DBC keep their values, the response carries the code, the block is at once ready
for the next command (R177). There is nothing to return from (R178). -/
def raise (k : FaultKind) (s : State) : Host.Outcome State Fault Refusal :=
  respond (faultResponse s.config k) s

/-- The first test of FLIP, DIAG and DECODE: EmptyObject when `DBC = 0` (R172, R175). A codeword that the buffer could
not hold is no state of the block (R21, R25) and stops the model. -/
def needCodeword (s : State) (body : Host.Outcome State Fault Refusal) : Host.Outcome State Fault Refusal :=
  if s.dbc = 0 then raise .emptyObject s
  else if cwBits s.config < s.total then .fault .outsideBuffer
  else body

/-! ## Reset and the status outputs -/

/-- The effect of RST: `DBC = 0`, every byte of CW 0x00, no response, nothing else (R33, R200, R201). -/
def State.resetBlock (s : State) : State := { s with cw := [], dbc := 0 }

/-- RST while a command is in progress: the reset state, and a free value in place of that command's response (R208). -/
def State.resetDuringCommand (s : State) : State :=
  { s.resetBlock with
    responses := s.responses ++ (Config.cutResponse s.cuts).toList
    cuts := s.cuts + 1 }

/-- CW_OUT, its `CW_BYTES` byte lanes: byte `b` of the buffer is `CW_OUT[8b+7:8b]` (R74). -/
def State.cwOut (s : State) : List Byte := (List.range (cwBytes s.config)).map s.cw.readByte

/-- `DBC_OUT = DBC` (R74). -/
def State.dbcOut (s : State) : BitVec 12 := s.dbc

end Sys2Proof.Machine
end

