-- ==== Sys2Proof/Machine/DecodeCommand.lean ====
section
/-! DEFINITION. The DECODE command (R160). -/

namespace Sys2Proof.Machine

/-- What the decoder's walk carries: the output bytes and the number of data bits copied (R31, R160). -/
structure Extraction where
  out : List Byte
  n : Nat
  deriving DecidableEq, Repr

/-- One index of the walk: skip a reserved index, else copy the bit into the next place of the output (R160). -/
def extractAt (m : Memory) (w : Extraction) (i : Nat) : Extraction :=
  if isPowerOfTwo i then w
  else if cwGet m i then ⟨w.out.modify (w.n / 8) (fun b => setBit b (w.n % 8) 1), w.n + 1⟩
  else ⟨w.out, w.n + 1⟩

/-- The data bytes of a codeword of `dbits` data bits: `dbits div 8` bytes (R160). -/
def extractData (m : Memory) (dbits : Nat) : List Byte :=
  ((List.range (totalCount dbits)).foldl (extractAt m) ⟨List.replicate (dbits / 8) 0, 0⟩).out

/-- DECODE: EmptyObject, else the data bytes in the response. The state of the block is only read (R160). -/
def execDecode (s : State) : Host.Outcome State Fault Refusal :=
  needCodeword s (respond (dataResponse s.config (extractData s.cw s.dbc.toNat)) s)

end Sys2Proof.Machine
end

