-- ==== Sys2Proof/Machine/Parity.lean ====
section
/-! DEFINITION. The parity calculator (R117 to R121) and the syndrome (R140), as closed forms over the codeword. -/

namespace Sys2Proof.Machine

/-- `XOR_{i in is} CW[i]`, false for the empty list (R12, R117). -/
def xorBits (m : Memory) : List Nat → Bool
  | [] => false
  | i :: is => cwGet m i ^^ xorBits m is

/-- The data indices of parity group `k` below `t`: `3 <= i < t`, not reserved, bit `k` of `i` set (R16, R118). -/
def groupIndices (t k : Nat) : List Nat := (dataIndicesBelow t).filter (fun i => i.testBit k)

/-- `groupParity(k)`, from the data bits only (R118). -/
def groupParity (m : Memory) (t k : Nat) : Bool := xorBits m (groupIndices t k)

/-- `restParity()`: the parity of the indices 1 to T-1 (R120). -/
def restParity (m : Memory) (t : Nat) : Bool := xorBits m (List.range' 1 (t - 1))

/-- `overallEven()`: whether the indices 0 to T-1 hold an even number of ones (R121). -/
def overallEven (m : Memory) (t : Nat) : Bool := !xorBits m (List.range t)

/-- The contribution of the parity index `2^k` to the syndrome: `2^k` when the stored parity bit disagrees (R140). -/
def disagreement (m : Memory) (t k : Nat) : Nat :=
  if cwGet m (2 ^ k) != groupParity m t k then 2 ^ k else 0

/-- The syndrome: the sum over `k = 0` to `P-2` of the disagreeing parity indices (R140). -/
def syndrome (m : Memory) (p t : Nat) : Nat := ((List.range (p - 1)).map (disagreement m t)).sum

end Sys2Proof.Machine
end

