-- ==== Sys2Proof/Machine/DiagCommand.lean ====
section
/-! DEFINITION. The DIAG command: syndrome diagnostic engine and single-bit corrector (R140 to R150). -/

namespace Sys2Proof.Machine

/-- The syndrome of the block's codeword, on entry to DIAG (R140). -/
def State.syndrome (s : State) : Nat := Machine.syndrome s.cw s.parity s.total

/-- The overall parity of the block's codeword, on entry to DIAG (R143). -/
def State.even (s : State) : Bool := overallEven s.cw s.total

/-- The status of the block's codeword (R144). -/
def State.status (s : State) : Status := classify s.syndrome s.even

/-- Step 4: act on the status; a correcting status toggles the bit at the syndrome once, and faults when that bit does
not exist (R145 to R148, R150). -/
def correct (st : Status) (syn : Nat) (s : State) : Host.Outcome State Fault Refusal :=
  match st with
  | .multiBitError => respond (reportResponse s.config st syn) s
  | .noError => respond (reportResponse s.config st 0) s
  | .masterParityBitError | .parityBitError | .dataBitError =>
    if s.total ≤ syn then raise .indexOutOfRange s
    else respond (reportResponse s.config st syn) (s.setCw (flipBit s.cw syn))

/-- DIAG: EmptyObject, else diagnose and correct (R150). -/
def execDiag (s : State) : Host.Outcome State Fault Refusal :=
  needCodeword s (correct s.status s.syndrome s)

end Sys2Proof.Machine
end

