-- ==== Sys2Proof/Machine/EncodeCommand.lean ====
section
/-! DEFINITION. The ENCODE command by the source's five steps (R130 to R133). -/

namespace Sys2Proof.Machine

/-- What the encoder's walk carries: the new buffer, the parity accumulators (entry 0 unused) and the number of data
bits placed (R31, R130). It is created at the start of ENCODE and discarded at its end. -/
structure Placement where
  buf : Memory
  acc : List Nat
  n : Nat
  deriving DecidableEq, Repr

/-- Count a set data bit at index `i` in every group named by a set bit of `i`: entry `k + 1` belongs to group `k`
(R117, R132). -/
def tally (i : Nat) (acc : List Nat) : List Nat :=
  acc.mapIdx (fun j a => if 1 ≤ j ∧ i.testBit (j - 1) = true then a + 1 else a)

/-- One index of step 3: skip a reserved index, else place the next data bit and tally it if it is 1 (R130, R132). -/
def placeAt (d : List Byte) (w : Placement) (i : Nat) : Placement :=
  if isPowerOfTwo i then w
  else if dataBit d w.n then ⟨cwSet w.buf i true, tally i w.acc, w.n + 1⟩
  else ⟨w.buf, w.acc, w.n + 1⟩

/-- Steps 2 and 3: from a zeroed buffer and zeroed accumulators, walk the indices 0 to T-1 (R130, R132). -/
def placeData (d : List Byte) (p t : Nat) : Placement :=
  (List.range t).foldl (placeAt d) ⟨[], List.replicate p 0, 0⟩

/-- Step 4 at group `k`: set the parity bit `2^k` when the accumulator `k + 1` is odd (R130, R133). -/
def placeParityAt (acc : List Nat) (m : Memory) (k : Nat) : Memory :=
  if acc.getD (k + 1) 0 % 2 = 1 then cwSet m (2 ^ k) true else m

/-- Step 4 (R130, R133). -/
def placeParity (p : Nat) (w : Placement) : Memory :=
  (List.range (p - 1)).foldl (placeParityAt w.acc) w.buf

/-- Step 5: set the master bit when the number of ones at the indices 1 to T-1 is odd (R130, R133). -/
def placeMaster (t : Nat) (m : Memory) : Memory :=
  if (List.range' 1 (t - 1)).countP (cwGet m) % 2 = 1 then cwSet m 0 true else m

/-- The codeword of the data-bit count `dbits` built from the byte lanes `d` (R130 steps 2 to 5). -/
def buildCodeword (d : List Byte) (dbits : Nat) : Memory :=
  placeMaster (totalCount dbits)
    (placeParity (parityCount dbits) (placeData d (parityCount dbits) (totalCount dbits)))

/-- The input checks of ENCODE, on `len` alone (R131). -/
def encodeRejects (c : Config) (len : Nat) : Bool :=
  decide (len = 0) || decide (c.maxDataBytes < len) || !wellSized (8 * len)

/-- ENCODE: InvalidInput by R131, else commit the new codeword and its data-bit count at once (R130). -/
def execEncode (len : Nat) (s : State) : Host.Outcome State Fault Refusal :=
  if encodeRejects s.config len then raise .invalidInput s
  else
    respond (plainResponse s.config)
      ((s.setCw (buildCodeword s.din (8 * len))).setDbc (BitVec.ofNat 12 (8 * len)))

end Sys2Proof.Machine
end

