-- ==== Sys2Proof/Machine/FlipCommand.lean ====
section
/-! DEFINITION. The FLIP command (R96). -/

namespace Sys2Proof.Machine

/-- FLIP i: EmptyObject, then IndexOutOfRange when `ARG >= T`, else toggle bit `ARG` (R96, R175). -/
def execFlip (index : Nat) (s : State) : Host.Outcome State Fault Refusal :=
  needCodeword s <|
    if s.total ≤ index then raise .indexOutOfRange s
    else respond (plainResponse s.config) (s.setCw (flipBit s.cw index))

end Sys2Proof.Machine
end

