-- ==== Sys2Proof/Machine/Dispatch.lean ====
section
/-! DEFINITION. One arm per command (R63, R64). -/

namespace Sys2Proof.Machine

/-- The meaning of each command on a state whose `din` holds the DIN lanes of the transaction. -/
def exec (i : Instr) (s : State) : Host.Outcome State Fault Refusal :=
  match i with
  | .encode len => Sys2Proof.Machine.execEncode len s
  | .diag => Sys2Proof.Machine.execDiag s
  | .decode => Sys2Proof.Machine.execDecode s
  | .flip index => Sys2Proof.Machine.execFlip index s

end Sys2Proof.Machine
end

