-- ==== Sys2Proof/Machine/Step.lean ====
section
/-! DEFINITION. The step: the block takes the host's next action and performs it whole (R5, R50, R60). -/

namespace Sys2Proof.Machine

/-- One step. With no action waiting the block "is idle between commands and holds all its state" (R188). A command
word is decoded first, and an illegal one raises IllegalCommand before the state is looked at (R174, R175). RST is a
step of its own (R200, R208). Overlapping commands have no meaning (R206). -/
def step (s : State) : Host.Outcome State Fault Refusal :=
  match s.pending with
  | [] => .next s
  | .command cmd din :: rest =>
    match decode cmd with
    | .ok i => exec i (s.present din rest)
    | .error _ => raise .illegalCommand (s.present din rest)
  | .reset :: rest => .next (s.setPending rest).resetBlock
  | .resetDuring _ din :: rest => .next (s.present din rest).resetDuringCommand
  | .overlap _ _ :: _ => .refused .overlappingCommands

/-- `s` with the command word `w` as the host's next action, DIN left as it stands. There is no fetch in this block:
the host presents each command word (R27, R53). -/
def State.withFetchWord (s : State) (_nbits w : Nat) : State :=
  { s with pending := .command (BitVec.ofNat 16 w) s.din :: s.pending }

end Sys2Proof.Machine
end

