-- ==== Sys2Proof/Machine/Assembler.lean ====
section
/-! DEFINITION. The spec's way of writing command sequences (R78): one line is one host action. -/

namespace Sys2Proof.Machine

/-- A line of a command sequence (R78). -/
inductive AsmLine where
  /-- `ENCODE b0 b1 ... b(len-1)`. -/
  | encode (bytes : List Byte)
  /-- `DIAG`. -/
  | diag
  /-- `DECODE`. -/
  | decode
  /-- `FLIP i`. -/
  | flip (index : Nat)
  /-- `RESET`: not a command, the RST input. -/
  | reset
  deriving DecidableEq, Repr

/-- The transaction that presents command `i` with `bytes` on DIN, when a command word can express `i` (R62). -/
def commandAction (i : Instr) (bytes : List Byte) : Option HostAction :=
  if i.wellFormed then some (.command (encode i) bytes) else none

/-- The host action a line stands for, `none` for an operand that ARG cannot hold (R62, R78). -/
def AsmLine.action : AsmLine → Option HostAction
  | .encode bytes => commandAction (.encode bytes.length) bytes
  | .diag => commandAction .diag []
  | .decode => commandAction .decode []
  | .flip index => commandAction (.flip index) []
  | .reset => some .reset

/-- The host actions of a command sequence: those of its lines in order, `none` if a line has none. -/
def assemble : List AsmLine → Option (List HostAction)
  | [] => some []
  | l :: ls =>
    match l.action, assemble ls with
    | some a, some as => some (a :: as)
    | _, _ => none

end Sys2Proof.Machine
end

