-- ==== Sys2Proof/Safety.lean ====
section
/-! DEFINITION. The terms claims are stated in: the invariant of reachable states (R25), consistency of a codeword
(R134), the set of damaged indices (R142), and what a step must not be for the machine to go on. -/

namespace Sys2Proof.Machine

/-- The codeword fits the buffer: what `needCodeword` asks beyond `DBC != 0`. Every state with `State.Inv` has it. -/
abbrev State.Fits (s : State) : Prop := s.total ≤ cwBits s.config

/-- The invariant of every reachable state (R25), with the range of the parameter (R7) and the canonical form of the
buffer. The last part says of every byte that is not part of the codeword that it is zero. -/
structure State.Inv (s : State) : Prop where
  config : s.config.Admissible
  canonical : s.cw.wf = true
  dbc : s.dbc = 0 ∨ ∃ len, Admitted s.config len ∧ s.dbc.toNat = 8 * len
  padding : ∀ i, s.total ≤ i → cwGet s.cw i = false

/-- The block holds a codeword: not Empty (R23), in a state with the invariant. -/
structure State.Holds (s : State) : Prop where
  inv : s.Inv
  nonempty : s.dbc ≠ 0

/-- The codeword `m` of `d` data bits is consistent (R134). -/
structure Consistent (m : Memory) (d : Nat) : Prop where
  groups : ∀ k, k + 2 ≤ parityCount d → cwGet m (2 ^ k) = groupParity m (totalCount d) k
  master : cwGet m 0 = restParity m (totalCount d)
  padding : ∀ i, totalCount d ≤ i → cwGet m i = false

/-- The block's codeword is consistent (R134: "a property of (CW, DBC), not a stored flag"). -/
abbrev State.Consistent (s : State) : Prop := Machine.Consistent s.cw s.dbc.toNat

/-- The set E of the indices below `t` at which two codewords differ, in ascending order (R142). -/
def damage (m c : Memory) (t : Nat) : List Nat := (List.range t).filter (fun i => cwGet m i != cwGet c i)

/-- `XOR_{i in is} i` (R142). -/
def xorIndices : List Nat → Nat
  | [] => 0
  | i :: is => i ^^^ xorIndices is

/-- The host is about to break its one rule of use (R206). -/
def State.overlapNext (s : State) : Bool :=
  match s.pending with
  | .overlap _ _ :: _ => true
  | _ => false

/-- The block's own state, (CW, DBC) with the build parameter, is the same (R20). -/
abbrev sameBlock (s t : State) : Prop := t.config = s.config ∧ t.cw = s.cw ∧ t.dbc = s.dbc

/-- The host's side other than the responses is the same. -/
abbrev sameHost (s t : State) : Prop := t.din = s.din ∧ t.pending = s.pending ∧ t.cuts = s.cuts

end Sys2Proof.Machine
end

