-- ==== Sys2Proof/Certificates/Slice0/Obligations.lean ====
section
/-! DEFINITION. The statements for the provers, in the order of the spec's files: encoding, step and reset, bit plane,
sizes, parity, ENCODE, DIAG, DECODE, faults, whole-machine rules. In every response below `⟨FAULT, RPT, DOUT_LEN, DOUT⟩`
is written out, DOUT being `MAX_DATA_BYTES` lanes. -/

open Sys2Proof Sys2Proof.Machine

/-! ## Encoding (R61 to R65) -/

/-- R61, R63: a word decodes to a command exactly when it is the encoding of that command, well-formed; so decoding
inverts encoding at every operand value, and each legal word has one meaning. -/
def Obligations.DecodeIsTheInverseOfEncode : Prop :=
  ∀ (w : Word) (i : Instr), decode w = .ok i ↔ i.WellFormed ∧ encode i = w

/-- R63: "A word w selects a row when `w & mask = match`", for the four rows of the map, with ARG the low 12 bits. -/
def Obligations.WordSelectsItsTableRow : Prop :=
  ∀ w : Word,
    (∀ len, decode w = .ok (.encode len) ↔ w &&& 0xF000 = 0x1000 ∧ len = (w &&& 0x0FFF).toNat) ∧
    (decode w = .ok .diag ↔ w &&& 0xFFFF = 0x2000) ∧
    (decode w = .ok .decode ↔ w &&& 0xFFFF = 0x3000) ∧
    (∀ index, decode w = .ok (.flip index) ↔ w &&& 0xF000 = 0x4000 ∧ index = (w &&& 0x0FFF).toNat)

/-- R65: a word is illegal when its OPC is 0 or 5 to 15, or when it is DIAG or DECODE with ARG != 0, and only then. -/
def Obligations.IllegalWordsAreExactlyThese : Prop :=
  ∀ w : Word,
    (∃ e, decode w = .error e) ↔
      ((w >>> 12).toNat = 0 ∨ 5 ≤ (w >>> 12).toNat ∨
        (((w >>> 12).toNat = 2 ∨ (w >>> 12).toNat = 3) ∧ (w &&& 0x0FFF) ≠ 0))

/-- The command words of `95_test_vectors.md` section 2.8. -/
def Obligations.SampleWordsDecode : Prop :=
  decode 0x1004 = .ok (.encode 4) ∧ decode 0x1000 = .ok (.encode 0) ∧ decode 0x2000 = .ok .diag ∧
  decode 0x2001 = .error .diagWithArgument ∧ decode 0x3000 = .ok .decode ∧
  decode 0x3FFF = .error .decodeWithArgument ∧ decode 0x4006 = .ok (.flip 6) ∧ decode 0x4FFF = .ok (.flip 4095) ∧
  decode 0x0000 = .error .noSuchOpcode ∧ decode 0x5000 = .error .noSuchOpcode ∧
  decode 0xFFFF = .error .noSuchOpcode

/-- R78: a line of a command sequence presents the command word the rule writes, with the listed bytes on DIN, and that
word decodes to the line's command. -/
def Obligations.AssembledLinesDecodeToTheirCommands : Prop :=
  (∀ bytes : List Byte, bytes.length < 4096 →
    (AsmLine.encode bytes).action = some (.command (0x1000 ||| BitVec.ofNat 16 bytes.length) bytes) ∧
    decode (0x1000 ||| BitVec.ofNat 16 bytes.length) = .ok (.encode bytes.length)) ∧
  (AsmLine.diag.action = some (.command 0x2000 []) ∧ decode 0x2000 = .ok .diag) ∧
  (AsmLine.decode.action = some (.command 0x3000 []) ∧ decode 0x3000 = .ok .decode) ∧
  (∀ index : Nat, index < 4096 →
    (AsmLine.flip index).action = some (.command (0x4000 ||| BitVec.ofNat 16 index) []) ∧
    decode (0x4000 ||| BitVec.ofNat 16 index) = .ok (.flip index)) ∧
  AsmLine.reset.action = some .reset

/-! ## The step, reset and the interface (R33, R50, R60, R74, R174, R188, R200 to R208) -/

/-- R50, R60: when the host presents a word that decodes to `i`, the step is `i` on the state with the transaction's
DIN, the action taken off the host's list. -/
def Obligations.StepRunsThePresentedCommand : Prop :=
  ∀ (s : State) (w : Word) (d : List Byte) (rest : List HostAction) (i : Instr),
    s.pending = .command w d :: rest → decode w = .ok i → step s = exec i { s with din := d, pending := rest }

/-- R174: an illegal word raises IllegalCommand (code 4) and changes no state, "whatever the state". -/
def Obligations.IllegalWordRaisesIllegalCommand : Prop :=
  ∀ (s : State) (w : Word) (d : List Byte) (rest : List HostAction) (e : IllegalWord),
    s.pending = .command w d :: rest → decode w = .error e →
      step s = .next { s with
        din := d, pending := rest
        responses := s.responses ++ [⟨4, 0, 0, List.replicate s.config.maxDataBytes 0⟩] }

/-- R200, R201: RST gives `DBC = 0` and a zero buffer, no response, and does nothing else. -/
def Obligations.ResetEmptiesTheBlock : Prop :=
  ∀ (s : State) (rest : List HostAction), s.pending = .reset :: rest →
    ∃ t, step s = .next t ∧ t.dbc = 0 ∧ (∀ b, t.cw.readByte b = 0) ∧ t.cw.wf = true ∧
      t.responses = s.responses ∧ t.config = s.config ∧ t.din = s.din ∧ t.pending = rest ∧ t.cuts = s.cuts

/-- R208: after a reset that cuts across a command "the state afterwards is the reset state"; at most one response is
given for the cut command (whether one is, and which, is free: the model's choice of form, log 6). -/
def Obligations.ResetDuringACommandEmptiesTheBlock : Prop :=
  ∀ (s : State) (w : Word) (d : List Byte) (rest : List HostAction), s.pending = .resetDuring w d :: rest →
    ∃ t, step s = .next t ∧ t.dbc = 0 ∧ (∀ b, t.cw.readByte b = 0) ∧ t.cw.wf = true ∧ t.config = s.config ∧
      t.pending = rest ∧ (t.responses = s.responses ∨ ∃ r, t.responses = s.responses ++ [r])

/-- R206: a step in which the host presents a command before the previous one has responded has no meaning. That such a
step exists as a host action is the model's choice (log 5). -/
def Obligations.OverlappingCommandsAreRefused : Prop :=
  ∀ (s : State) (w v : Word) (rest : List HostAction), s.pending = .overlap w v :: rest →
    step s = .refused .overlappingCommands

/-- R188: with no command to perform the block is idle and holds all its state. That a step with nothing waiting goes on
is the model's choice (log 4). -/
def Obligations.IdleBlockHoldsItsState : Prop :=
  ∀ s : State, s.pending = [] → step s = .next s

/-- R33 and the convention of R24: after reset `DBC = 0`, every byte of CW is 0x00, P, T and BL are 0; no response
exists. For every build. -/
def Obligations.ResetStateIsEmptyAndZero : Prop :=
  ∀ c : Config,
    (State.resetOf c).config = c ∧ (State.resetOf c).dbc = 0 ∧
    (∀ b, b < cwBytes c → (State.resetOf c).cw.readByte b = 0) ∧
    (State.resetOf c).responses = [] ∧ parityCount 0 = 0 ∧ totalCount 0 = 0 ∧ byteLength 0 = 0

/-- R25: the invariant holds after reset, for every admissible build. -/
def Obligations.ResetHasTheInvariant : Prop :=
  ∀ c : Config, c.Admissible → (State.resetOf c).Inv

/-- R25: every step keeps the invariant: DBC is 0 or `8 * len` for an admitted `len`, every bit from T up is zero, the
buffer is in canonical form, the build parameter is in range. -/
def Obligations.EveryStepKeepsTheInvariant : Prop :=
  ∀ s t : State, s.Inv → step s = .next t → t.Inv

/-- R177, R178: in a state with the invariant the block never stops: unless the host breaks its rule of use (R206),
every step gives a next state. -/
def Obligations.InvariantStatesNeverStop : Prop :=
  ∀ s : State, s.Inv → s.overlapNext = false → ∃ t, step s = .next t

/-- R201: no step changes the build parameter. -/
def Obligations.NoStepChangesTheConfiguration : Prop :=
  ∀ s t : State, step s = .next t → t.config = s.config

/-- R74: `CW_OUT` has `CW_BYTES` lanes, `CW_OUT[i] = CW[i]` for every bit index of the buffer, and `DBC_OUT = DBC`. -/
def Obligations.StatusOutputsShowTheState : Prop :=
  ∀ s : State,
    s.cwOut.length = cwBytes s.config ∧
    (∀ i, i < cwBits s.config → (s.cwOut.getD (i / 8) 0).getLsbD (i % 8) = cwGet s.cw i) ∧
    s.dbcOut = s.dbc

/-! ## The bit plane (R41, R91 to R97) -/

/-- R90, R91: a bit written reads as written, no other bit of the byte changes, writing is idempotent, and outside the
stated domains `setBit` is a no-op. -/
def Obligations.SetBitWritesOneBitOfAByte : Prop :=
  ∀ (byte : Byte) (offset value : Nat),
    (offset < 8 → value < 2 →
      (∀ j, j < 8 → getBit (setBit byte offset value) j = if j = offset then decide (value = 1) else getBit byte j) ∧
      setBit (setBit byte offset value) offset value = setBit byte offset value) ∧
    (8 ≤ offset ∨ 2 ≤ value → setBit byte offset value = byte)

/-- R92: true for 0 and the powers of two, "false for all other non-negative integers". -/
def Obligations.IsPowerOfTwoHoldsOfZeroAndPowers : Prop :=
  ∀ n : Nat, isPowerOfTwo n = true ↔ n = 0 ∨ ∃ k, n = 2 ^ k

/-- R96: FLIP i with `i < T` completes: bit i is toggled, no other bit changes, DBC stays, and every field of the
response is zero. -/
def Obligations.FlipTogglesTheBit : Prop :=
  ∀ (s : State) (index : Nat), s.Holds → index < s.total →
    ∃ t, exec (.flip index) s = .next t ∧ (∀ i, cwGet t.cw i = if i = index then !cwGet s.cw i else cwGet s.cw i) ∧
      t.cw.wf = true ∧ t.dbc = s.dbc ∧ t.config = s.config ∧ sameHost s t ∧
      t.responses = s.responses ++ [⟨0, 0, 0, List.replicate s.config.maxDataBytes 0⟩]

/-- R95, R96: "FLIP i; FLIP i leaves the state as it was": the whole buffer and DBC. -/
def Obligations.FlipTwiceRestoresTheCodeword : Prop :=
  ∀ (s t u : State) (index : Nat), s.Holds → index < s.total →
    exec (.flip index) s = .next t → exec (.flip index) t = .next u → sameBlock s u

/-- R96, R173: FLIP with `ARG >= T` on a block that holds a codeword raises IndexOutOfRange (code 3), also where the bit
exists in the buffer as padding, and writes nothing. `Fits` rules out states that no run reaches (log 7). -/
def Obligations.FlipOutOfRangeFaults : Prop :=
  ∀ (s : State) (index : Nat), s.dbc ≠ 0 → s.Fits → s.total ≤ index →
    exec (.flip index) s = .next { s with
      responses := s.responses ++ [⟨3, 0, 0, List.replicate s.config.maxDataBytes 0⟩] }

/-- Frame of FLIP (R47: one bit, CW[ARG]): whatever FLIP answers, every byte of the buffer but `ARG div 8` and every bit
but `ARG` read as before, and nothing changes besides but one more response. -/
def Obligations.FlipFrame : Prop :=
  ∀ (s t : State) (index : Nat), s.cw.wf = true → exec (.flip index) s = .next t →
    (∀ b, b ≠ index / 8 → t.cw.readByte b = s.cw.readByte b) ∧ (∀ i, i ≠ index → cwGet t.cw i = cwGet s.cw i) ∧
    t.dbc = s.dbc ∧ t.config = s.config ∧ sameHost s t ∧ ∃ r, t.responses = s.responses ++ [r]

/-! ## Sizes and the index map (R8, R10, R25, R43, R110 to R116, R119) -/

/-- R114: `D >= 1` is well-sized iff `floor_log2(T(D) - 1) = floor_log2(D)`, iff
`D + floor_log2(D) + 1 < 2^(floor_log2(D) + 1)`. -/
def Obligations.WellSizedByLogarithms : Prop :=
  ∀ d : Nat, 1 ≤ d →
    (wellSized d = true ↔ (totalCount d - 1).log2 = d.log2) ∧
    (wellSized d = true ↔ d + d.log2 + 1 < 2 ^ (d.log2 + 1))

/-- R114: for `len <= 8189` the byte counts that are not well-sized are exactly `2^j - 1` for `j = 5` to 12. -/
def Obligations.IllSizedLengthsAreOneBelowPowers : Prop :=
  ∀ len : Nat, 1 ≤ len → len ≤ 8189 →
    (wellSized (8 * len) = false ↔ ∃ j, 5 ≤ j ∧ j ≤ 12 ∧ len = 2 ^ j - 1)

/-- R8: BL is non-decreasing, so the buffer holds the codeword of every admitted length. -/
def Obligations.BufferHoldsEveryAdmittedCodeword : Prop :=
  (∀ a b : Nat, a ≤ b → byteLength a ≤ byteLength b) ∧
  (∀ (c : Config) (len : Nat), len ≤ c.maxDataBytes →
    byteLength (8 * len) ≤ cwBytes c ∧ totalCount (8 * len) ≤ cwBits c)

/-- R8: MAX_T and MAX_P are the largest total and parity bit counts of any length the build accepts, both belong to the
longest length, and the buffer holds MAX_T bits. -/
def Obligations.LargestCountsBoundEveryLength : Prop :=
  ∀ c : Config,
    (∀ len, len ≤ c.maxDataBytes → totalCount (8 * len) ≤ maxTotal c ∧ parityCount (8 * len) ≤ maxParity c) ∧
    maxTotal c = totalCount (8 * c.maxDataBytes) ∧ maxParity c = parityCount (8 * c.maxDataBytes) ∧
    maxTotal c ≤ cwBits c

/-- R116: with `MAX_DATA_BYTES <= 510`, `D <= 4080`, `P <= 13`, `T <= 4093`, `BL <= 512`, and a syndrome is at most
4095, whatever the codeword. -/
def Obligations.QuantitiesFitTheirFields : Prop :=
  ∀ (c : Config) (len : Nat) (m : Memory), c.Admissible → Admitted c len →
    8 * len ≤ 4080 ∧ parityCount (8 * len) ≤ 13 ∧ totalCount (8 * len) ≤ 4093 ∧ byteLength (8 * len) ≤ 512 ∧
    syndrome m (parityCount (8 * len)) (totalCount (8 * len)) ≤ 4095

/-- R25 item 3, R97: in a block that holds a codeword the reserved indices below T are exactly 0 and `2^k` for
`k = 0` to `P-2`, all of these are below T, and the data indices below T number exactly DBC. -/
def Obligations.ReservedIndicesOfAHeldCodeword : Prop :=
  ∀ s : State, s.Holds →
    (∀ i, i < s.total → (isPowerOfTwo i = true ↔ i = 0 ∨ ∃ k, k + 2 ≤ s.parity ∧ i = 2 ^ k)) ∧
    (∀ k, k + 2 ≤ s.parity → 2 ^ k < s.total) ∧
    (dataIndicesBelow s.total).length = s.dbc.toNat

/-- R43: `pos(n)` is the `(n+1)`-th data index: a data index with exactly `n` data indices below it, which `rank`
counts; and `pos(n) = n + m + 2` for the `m >= 1` with `2^m - m - 1 <= n <= 2^(m+1) - m - 3`, then
`m = floor_log2(pos(n))`. -/
def Obligations.PosIsTheNthDataIndex : Prop :=
  ∀ n : Nat,
    isDataIndex (pos n) = true ∧ (dataIndicesBelow (pos n)).length = n ∧ rank (pos n) = n ∧
    (∀ m, 1 ≤ m → 2 ^ m ≤ n + m + 1 → n + m + 3 ≤ 2 ^ (m + 1) → pos n = n + m + 2 ∧ m = (pos n).log2)

/-- R43, R114: for a well-sized `D` the data indices below T are exactly `pos(0)` to `pos(D-1)`, in that order. -/
def Obligations.DataIndicesAreThePositions : Prop :=
  ∀ d : Nat, wellSized d = true → dataIndicesBelow (totalCount d) = (List.range d).map pos

/-- R119, R114: every data index below T belongs to at least two parity groups, all of whose numbers are at most
`P-2`. -/
def Obligations.EveryDataIndexIsCoveredTwice : Prop :=
  ∀ d i : Nat, wellSized d = true → i < totalCount d → isDataIndex i = true →
    (∃ j k, j < k ∧ k + 2 ≤ parityCount d ∧ i ∈ groupIndices (totalCount d) j ∧ i ∈ groupIndices (totalCount d) k) ∧
    (∀ k, i.testBit k = true → k + 2 ≤ parityCount d)

/-! ## Parity and the syndrome (R121, R122, R140 to R142) -/

/-- R122: how one flip of a valid bit moves the parities. -/
def Obligations.OneFlipMovesTheParities : Prop :=
  ∀ (m : Memory) (t i : Nat), m.wf = true → i < t →
    overallEven (flipBit m i) t = !overallEven m t ∧
    (∀ k, isDataIndex i = true → groupParity (flipBit m i) t k = (groupParity m t k ^^ i.testBit k)) ∧
    (∀ k, isPowerOfTwo i = true → groupParity (flipBit m i) t k = groupParity m t k) ∧
    (∀ k, cwGet (flipBit m i) (2 ^ k) = (cwGet m (2 ^ k) ^^ decide (i = 2 ^ k)))

/-- R121: `overallEven()` is `CW[0] = restParity()`. -/
def Obligations.OverallEvenComparesTheMasterBit : Prop :=
  ∀ (m : Memory) (t : Nat), 1 ≤ t → (overallEven m t = true ↔ cwGet m 0 = restParity m t)

/-- R140, R141: bit k of the syndrome is `CW[2^k] ^ groupParity(k)` for `k <= P-2`, and the syndrome is at most
`2^(P-1) - 1`. -/
def Obligations.SyndromeBitsAreTheDisagreements : Prop :=
  ∀ (m : Memory) (p t : Nat),
    syndrome m p t < 2 ^ (p - 1) ∧
    ∀ k, k + 2 ≤ p → (syndrome m p t).testBit k = (cwGet m (2 ^ k) ^^ groupParity m t k)

/-- R142, the law of the code: for a well-sized `D` and a consistent codeword `c`, the syndrome of any buffer `m` is the
XOR of the valid indices at which `m` differs from `c`, and its overall parity is even iff they are even in number. -/
def Obligations.SyndromeIsTheXorOfTheDamage : Prop :=
  ∀ (m c : Memory) (d : Nat), wellSized d = true → Consistent c d →
    syndrome m (parityCount d) (totalCount d) = xorIndices (damage m c (totalCount d)) ∧
    (overallEven m (totalCount d) = true ↔ (damage m c (totalCount d)).length % 2 = 0)

/-! ## ENCODE (R130 to R135) -/

/-- R130, R132, R134: ENCODE of an admitted length completes: DBC is `8 * len`, data bit `n` of DIN is at `pos(n)`, the
codeword is consistent (with every bit from T up zero), and every field of the response is zero. -/
def Obligations.EncodeBuildsTheConsistentCodeword : Prop :=
  ∀ (s : State) (len : Nat), s.config.Admissible → Admitted s.config len →
    ∃ t, exec (.encode len) s = .next t ∧ t.dbc.toNat = 8 * len ∧
      (∀ n, n < 8 * len → cwGet t.cw (pos n) = (s.din.getD (n / 8) 0).getLsbD (n % 8)) ∧
      t.Consistent ∧ t.cw.wf = true ∧ t.config = s.config ∧ sameHost s t ∧
      t.responses = s.responses ++ [⟨0, 0, 0, List.replicate s.config.maxDataBytes 0⟩]

/-- R135: the data bits and consistency determine the codeword, so ENCODE's new state is unique. -/
def Obligations.ConsistentCodewordIsUnique : Prop :=
  ∀ (m c : Memory) (d : Nat), wellSized d = true → m.wf = true → c.wf = true → Consistent m d → Consistent c d →
    (∀ n, n < d → cwGet m (pos n) = cwGet c (pos n)) → m = c

/-- R131, R171: ENCODE raises InvalidInput (code 1), writing nothing, for `len = 0`, for `len > MAX_DATA_BYTES`, and when
`8 * len` is not well-sized. -/
def Obligations.EncodeRejectsInadmissibleLengths : Prop :=
  ∀ (s : State) (len : Nat), (len = 0 ∨ s.config.maxDataBytes < len ∨ wellSized (8 * len) = false) →
    exec (.encode len) s = .next { s with
      responses := s.responses ++ [⟨1, 0, 0, List.replicate s.config.maxDataBytes 0⟩] }

/-- R66: DIN lanes at `k >= len` have no effect on ENCODE's state or response. -/
def Obligations.EncodeIgnoresHigherLanes : Prop :=
  ∀ (s t : State) (d : List Byte) (len : Nat), (∀ k, k < len → d.getD k 0 = s.din.getD k 0) →
    exec (.encode len) s = .next t → exec (.encode len) { s with din := d } = .next { t with din := d }

/-- Frame of ENCODE (R47: all CW_BYTES bytes of CW, and DBC): the build parameter and the host's side stay, one response
is added, and every byte outside the buffer reads as before; every byte of the buffer too when the length is not
admitted. -/
def Obligations.EncodeFrame : Prop :=
  ∀ (s t : State) (len : Nat), s.Inv → exec (.encode len) s = .next t →
    t.config = s.config ∧ sameHost s t ∧ (∃ r, t.responses = s.responses ++ [r]) ∧
    (∀ b, cwBytes s.config ≤ b → t.cw.readByte b = s.cw.readByte b) ∧
    (¬ Admitted s.config len → t.dbc = s.dbc ∧ ∀ b, t.cw.readByte b = s.cw.readByte b)

/-! ## DIAG (R144 to R156) -/

/-- R144, R145, R148: what DIAG answers on a block that holds a codeword, by the syndrome and the overall parity on
entry. The report word is STATUS, CORRECTED, SYNDROME (R72). The power-of-two row needs no range test: such a syndrome is
below T (R141). -/
def Obligations.DiagFollowsTheDecisionTable : Prop :=
  ∀ s : State, s.Holds →
    (s.syndrome = 0 → s.even = true → exec .diag s = .next { s with
      responses := s.responses ++ [⟨0, 0x1000, 0, List.replicate s.config.maxDataBytes 0⟩] }) ∧
    (s.syndrome = 0 → s.even = false → exec .diag s = .next { s with
      cw := flipBit s.cw 0
      responses := s.responses ++ [⟨0, 0x3000, 0, List.replicate s.config.maxDataBytes 0⟩] }) ∧
    (s.syndrome ≠ 0 → s.even = true → exec .diag s = .next { s with
      responses := s.responses ++
        [⟨0, 0x8000 + BitVec.ofNat 16 s.syndrome, 0, List.replicate s.config.maxDataBytes 0⟩] }) ∧
    (s.syndrome ≠ 0 → s.even = false → (∃ k, s.syndrome = 2 ^ k) → exec .diag s = .next { s with
      cw := flipBit s.cw s.syndrome
      responses := s.responses ++
        [⟨0, 0x5000 + BitVec.ofNat 16 s.syndrome, 0, List.replicate s.config.maxDataBytes 0⟩] }) ∧
    (s.syndrome ≠ 0 → s.even = false → (¬ ∃ k, s.syndrome = 2 ^ k) → s.syndrome < s.total →
      exec .diag s = .next { s with
        cw := flipBit s.cw s.syndrome
        responses := s.responses ++
          [⟨0, 0x7000 + BitVec.ofNat 16 s.syndrome, 0, List.replicate s.config.maxDataBytes 0⟩] }) ∧
    (s.syndrome ≠ 0 → s.even = false → (¬ ∃ k, s.syndrome = 2 ^ k) → s.total ≤ s.syndrome →
      exec .diag s = .next { s with
        responses := s.responses ++ [⟨3, 0, 0, List.replicate s.config.maxDataBytes 0⟩] })

/-- Frame of DIAG (R47, R147: at most one bit, CW[syndrome]): every byte but `syndrome div 8` and every bit but the
syndrome's read as before, DBC stays, and nothing changes besides but one more response. -/
def Obligations.DiagFrame : Prop :=
  ∀ s t : State, s.cw.wf = true → exec .diag s = .next t →
    (∀ b, b ≠ s.syndrome / 8 → t.cw.readByte b = s.cw.readByte b) ∧
    (∀ i, i ≠ s.syndrome → cwGet t.cw i = cwGet s.cw i) ∧
    t.dbc = s.dbc ∧ t.config = s.config ∧ sameHost s t ∧ ∃ r, t.responses = s.responses ++ [r]

/-- R151: a consistent codeword is reported as NoError with syndrome 0, and nothing is written: "encoding is a fixed point
of diagnosis". -/
def Obligations.DiagOfAConsistentCodewordIsNoError : Prop :=
  ∀ s : State, s.Holds → s.Consistent →
    exec .diag s = .next { s with
      responses := s.responses ++ [⟨0, 0x1000, 0, List.replicate s.config.maxDataBytes 0⟩] }

/-- R152, single-bit recoverability: after one FLIP of any valid bit `i` of a consistent codeword, DIAG reports it by the
table of R152 and restores the codeword. -/
def Obligations.DiagRepairsEverySingleFlip : Prop :=
  ∀ (s : State) (i : Nat), s.Holds → s.Consistent → i < s.total →
    ∃ t u, exec (.flip i) s = .next t ∧ exec .diag t = .next u ∧ u.cw = s.cw ∧ u.dbc = s.dbc ∧
      u.responses = t.responses ++
        [⟨0, if i = 0 then 0x3000 else if isPowerOfTwo i then 0x5000 + BitVec.ofNat 16 i else 0x7000 + BitVec.ofNat 16 i,
          0, List.replicate s.config.maxDataBytes 0⟩]

/-- R153, double-bit detection: after FLIPs of two distinct valid bits of a consistent codeword, DIAG reports
MultiBitError, not corrected, with syndrome `i ^ j`, and writes nothing. -/
def Obligations.DiagDetectsEveryDoubleFlip : Prop :=
  ∀ (s : State) (i j : Nat), s.Holds → s.Consistent → i < s.total → j < s.total → i ≠ j →
    ∃ t u v, exec (.flip i) s = .next t ∧ exec (.flip j) t = .next u ∧ exec .diag u = .next v ∧ v.cw = u.cw ∧
      v.dbc = u.dbc ∧
      v.responses = u.responses ++
        [⟨0, 0x8000 + BitVec.ofNat 16 (i ^^^ j), 0, List.replicate s.config.maxDataBytes 0⟩]

/-- R154: after FLIPs of three distinct valid bits DIAG never restores the codeword: it faults with IndexOutOfRange and
writes nothing when the XOR of the three is at or above T, and otherwise reports CORRECTED = 1 on a different, consistent
codeword. -/
def Obligations.DiagNeverUndoesATripleFlip : Prop :=
  ∀ (s : State) (i j k : Nat), s.Holds → s.Consistent → i < s.total → j < s.total → k < s.total →
    i ≠ j → i ≠ k → j ≠ k →
    ∃ t u v x, exec (.flip i) s = .next t ∧ exec (.flip j) t = .next u ∧ exec (.flip k) u = .next v ∧
      exec .diag v = .next x ∧ x.cw ≠ s.cw ∧
      (s.total ≤ i ^^^ j ^^^ k →
        x.cw = v.cw ∧ x.responses = v.responses ++ [⟨3, 0, 0, List.replicate s.config.maxDataBytes 0⟩]) ∧
      (i ^^^ j ^^^ k < s.total →
        x.Consistent ∧ ∃ r, x.responses = v.responses ++ [r] ∧ r.fault = 0 ∧ r.rpt.getLsbD 12 = true)

/-- R156: after a DIAG that completes with CORRECTED = 1 the codeword is consistent and a second DIAG reports NoError;
after one that reports MultiBitError or faults the codeword is unchanged and a second DIAG answers the same. -/
def Obligations.SecondDiagConfirmsTheFirst : Prop :=
  ∀ (s t : State) (r : Response), s.Holds → exec .diag s = .next t → t.responses = s.responses ++ [r] →
    (r.fault = 0 → r.rpt.getLsbD 12 = true →
      t.Consistent ∧ exec .diag t = .next { t with
        responses := t.responses ++ [⟨0, 0x1000, 0, List.replicate s.config.maxDataBytes 0⟩] }) ∧
    (r.fault ≠ 0 ∨ r.rpt.getLsbD 12 = false →
      t.cw = s.cw ∧ exec .diag t = .next { t with responses := t.responses ++ [r] })

/-! ## DECODE (R76, R160 to R163) -/

/-- R160, R76: DECODE completes on a block that holds a codeword, corrupted or not: `DOUT_LEN = DBC div 8`, data bit `n`
of DOUT is `CW[pos(n)]`, the lanes from DOUT_LEN up are zero, and no state changes. -/
def Obligations.DecodeReturnsTheDataBits : Prop :=
  ∀ s : State, s.Holds →
    ∃ t r, exec .decode s = .next t ∧ sameBlock s t ∧ sameHost s t ∧ t.responses = s.responses ++ [r] ∧
      r.fault = 0 ∧ r.rpt = 0 ∧ r.doutLen.toNat = s.dbc.toNat / 8 ∧ r.dout.length = s.config.maxDataBytes ∧
      (∀ n, n < s.dbc.toNat → (r.dout.getD (n / 8) 0).getLsbD (n % 8) = cwGet s.cw (pos n)) ∧
      (∀ k, s.dbc.toNat / 8 ≤ k → r.dout.getD k 0 = 0)

/-- Frame of DECODE ("pure/read-only", R160): whatever DECODE answers, every byte of the buffer, DBC and the rest of the
state stay, but for one more response. -/
def Obligations.DecodeFrame : Prop :=
  ∀ s t : State, exec .decode s = .next t →
    (∀ b, t.cw.readByte b = s.cw.readByte b) ∧ sameBlock s t ∧ sameHost s t ∧ ∃ r, t.responses = s.responses ++ [r]

/-- R161, round trip: ENCODE of any admitted length followed by DECODE returns `DOUT_LEN = len` and the bytes on DIN. -/
def Obligations.DecodeAfterEncodeReturnsTheData : Prop :=
  ∀ (s : State) (len : Nat), s.config.Admissible → Admitted s.config len →
    ∃ t u r, exec (.encode len) s = .next t ∧ exec .decode t = .next u ∧ u.responses = t.responses ++ [r] ∧
      r.fault = 0 ∧ r.doutLen.toNat = len ∧ r.dout.length = s.config.maxDataBytes ∧
      (∀ k, k < len → r.dout.getD k 0 = s.din.getD k 0) ∧ (∀ k, len ≤ k → r.dout.getD k 0 = 0)

/-- R162, R203: the intended sequence ENCODE, one FLIP of any valid bit, DIAG, DECODE returns the data bytes. -/
def Obligations.DataSurvivesOneFlipAndDiag : Prop :=
  ∀ (s : State) (len i : Nat), s.config.Admissible → Admitted s.config len → i < totalCount (8 * len) →
    ∃ t u v x r, exec (.encode len) s = .next t ∧ exec (.flip i) t = .next u ∧ exec .diag u = .next v ∧
      exec .decode v = .next x ∧ x.responses = v.responses ++ [r] ∧ r.fault = 0 ∧ r.doutLen.toNat = len ∧
      ∀ k, k < len → r.dout.getD k 0 = s.din.getD k 0

/-- R163, R160: a flip of the master bit or of a parity bit does not change DECODE's response, and a flip of a data index
flips exactly the data bit of its rank. -/
def Obligations.DecodeSeesOnlyDataIndices : Prop :=
  ∀ (s : State) (i : Nat), s.Holds → i < s.total →
    ∃ t q r, exec .decode s = .next { s with responses := s.responses ++ [q] } ∧ exec (.flip i) s = .next t ∧
      exec .decode t = .next { t with responses := t.responses ++ [r] } ∧
      (isPowerOfTwo i = true → r = q) ∧
      (isDataIndex i = true → ∀ n, n < s.dbc.toNat →
        (r.dout.getD (n / 8) 0).getLsbD (n % 8) =
          ((q.dout.getD (n / 8) 0).getLsbD (n % 8) ^^ decide (n = rank i)))

/-! ## Faults (R170 to R178) -/

/-- R172, R175: on an Empty block DIAG, DECODE and FLIP of any index raise EmptyObject (code 2) and change nothing. -/
def Obligations.EmptyBlockRaisesEmptyObject : Prop :=
  ∀ (s : State) (i : Instr), s.dbc = 0 → (i = .diag ∨ i = .decode ∨ ∃ index, i = .flip index) →
    exec i s = .next { s with responses := s.responses ++ [⟨2, 0, 0, List.replicate s.config.maxDataBytes 0⟩] }

/-- R177: a command that faults leaves CW and DBC as they were, and RPT, DOUT_LEN and DOUT are zero. -/
def Obligations.FaultingCommandChangesNothing : Prop :=
  ∀ (s t : State) (i : Instr) (r : Response), exec i s = .next t → t.responses = s.responses ++ [r] → r.fault ≠ 0 →
    sameBlock s t ∧ sameHost s t ∧ r.rpt = 0 ∧ r.doutLen = 0 ∧ r.dout = List.replicate s.config.maxDataBytes 0

/-- R178: after a fault the next command is executed "as if the faulting one had never been issued". -/
def Obligations.FaultLeavesNoTrace : Prop :=
  ∀ (s t u : State) (i j : Instr) (r : Response), exec i s = .next t → t.responses = s.responses ++ [r] → r.fault ≠ 0 →
    exec j s = .next u →
    ∃ q, u.responses = s.responses ++ [q] ∧ exec j t = .next { u with responses := t.responses ++ [q] }

/-- R170, R175: which command can raise which fault. -/
def Obligations.EachCommandRaisesOnlyItsFaults : Prop :=
  ∀ (s t : State) (i : Instr) (r : Response), exec i s = .next t → t.responses = s.responses ++ [r] →
    match i with
    | .encode _ => r.fault = 0 ∨ r.fault = 1
    | .flip _ => r.fault = 0 ∨ r.fault = 2 ∨ r.fault = 3
    | .diag => r.fault = 0 ∨ r.fault = 2 ∨ r.fault = 3
    | .decode => r.fault = 0 ∨ r.fault = 2

/-! ## Whole-machine rules (R6, R22, R23, R28, R31) -/

/-- R28, R31: a command's effect is a function of (CW, DBC, CMD, DIN): the responses given before, the host's further
actions and the free-value counter make no difference. -/
def Obligations.CommandsDependOnTheBlockAlone : Prop :=
  ∀ (s t : State) (i : Instr) (rs : List Response) (ps : List HostAction) (n : Nat), exec i s = .next t →
    ∃ r, t.responses = s.responses ++ [r] ∧
      exec i { s with responses := rs, pending := ps, cuts := n } =
        .next { t with responses := rs ++ [r], pending := ps, cuts := n }

/-- R22, R23: DBC changes only by reset, to 0, and by an ENCODE of an admitted length, to `8 * len`. -/
def Obligations.DbcIsWrittenOnlyByEncodeAndReset : Prop :=
  ∀ s t : State, s.Inv → step s = .next t → t.dbc ≠ s.dbc →
    (t.dbc = 0 ∧ ∃ rest, s.pending = .reset :: rest ∨ ∃ w d, s.pending = .resetDuring w d :: rest) ∨
    (∃ w d rest len, s.pending = .command w d :: rest ∧ decode w = .ok (.encode len) ∧ Admitted s.config len ∧
      t.dbc.toNat = 8 * len)

/-- R6: the codeword changes only by a successful ENCODE, a successful FLIP (of its bit), a DIAG that corrects (the bit at
the syndrome, with a status other than NoError and MultiBitError), or reset. -/
def Obligations.CodewordChangesOnlyByTheseActions : Prop :=
  ∀ s t : State, step s = .next t → t.cw ≠ s.cw →
    (∃ rest, s.pending = .reset :: rest ∨ ∃ w d, s.pending = .resetDuring w d :: rest) ∨
    (∃ w d rest i, s.pending = .command w d :: rest ∧ decode w = .ok i ∧
      ((∃ len, i = .encode len ∧ Admitted s.config len) ∨
       (∃ index, i = .flip index ∧ s.dbc ≠ 0 ∧ index < s.total ∧ t.cw = flipBit s.cw index) ∨
       (i = .diag ∧ s.dbc ≠ 0 ∧ s.even = false ∧ s.syndrome < s.total ∧ t.cw = flipBit s.cw s.syndrome)))
end

