-- ==== Sys2Proof/Laws/Memory.lean ====
section
/-! SUPPORT. The laws of the codeword buffer: read after write, the canonical form, equal reads make equal buffers,
and the same for single bits. -/

namespace Sys2Proof.Machine

/-! ## Bytes -/

theorem Memory.wfFrom_mono {m : Memory} {lo hi : Nat} (h : lo ≤ hi) (w : m.wfFrom hi = true) :
    m.wfFrom lo = true := by
  cases m with
  | nil => rfl
  | cons c rest =>
    obtain ⟨a, v⟩ := c
    simp only [Memory.wfFrom, Bool.and_eq_true, decide_eq_true_eq] at w ⊢
    exact ⟨⟨by omega, w.1.2⟩, w.2⟩

/-- Below the canonical form's lower bound every byte is unlisted. -/
theorem Memory.readByte_below {m : Memory} {lo b : Nat} (w : m.wfFrom lo = true) (h : b < lo) :
    m.readByte b = unlistedByte := by
  induction m generalizing lo with
  | nil => rfl
  | cons c rest ih =>
    obtain ⟨a, v⟩ := c
    simp only [Memory.wfFrom, Bool.and_eq_true, decide_eq_true_eq] at w
    have : a ≠ b := by omega
    simp only [Memory.readByte, this, if_false]
    exact ih w.2 (by omega)

/-- A write leaves every other byte alone. -/
theorem Memory.readByte_writeByte_ne (m : Memory) {b c : Nat} (v : Byte) (h : c ≠ b) :
    (m.writeByte b v).readByte c = m.readByte c := by
  induction m with
  | nil =>
    simp only [Memory.writeByte]
    split
    · rfl
    · simp [Memory.readByte, Ne.symm h]
  | cons e rest ih =>
    obtain ⟨a, x⟩ := e
    simp only [Memory.writeByte]
    split
    · split
      · rfl
      · simp [Memory.readByte, Ne.symm h]
    · split
      · subst b
        split <;> simp [Memory.readByte, Ne.symm h]
      · simp only [Memory.readByte, ih]

/-- A byte reads as last written. -/
theorem Memory.readByte_writeByte_self {m : Memory} {lo : Nat} (w : m.wfFrom lo = true) (b : Nat) (v : Byte) :
    (m.writeByte b v).readByte b = v := by
  induction m generalizing lo with
  | nil =>
    simp only [Memory.writeByte]
    split
    · simp_all [Memory.readByte]
    · simp [Memory.readByte]
  | cons e rest ih =>
    obtain ⟨a, x⟩ := e
    simp only [Memory.wfFrom, Bool.and_eq_true, decide_eq_true_eq] at w
    simp only [Memory.writeByte]
    split
    · rename_i hlt
      split
      · rename_i hv
        have : a ≠ b := by omega
        simp only [Memory.readByte, this, if_false]
        rw [Memory.readByte_below w.2 (by omega), hv]
      · simp [Memory.readByte]
    · split
      · rename_i hba
        split
        · rename_i hv
          rw [Memory.readByte_below w.2 (by omega), hv]
        · simp [Memory.readByte]
      · rename_i hne
        have : a ≠ b := fun h => hne h.symm
        simp only [Memory.readByte, this, if_false]
        exact ih w.2

theorem Memory.wfFrom_writeByte {m : Memory} {lo b : Nat} (w : m.wfFrom lo = true) (h : lo ≤ b) (v : Byte) :
    (m.writeByte b v).wfFrom lo = true := by
  induction m generalizing lo with
  | nil =>
    simp only [Memory.writeByte]
    split
    · rfl
    · simp_all [Memory.wfFrom]
  | cons e rest ih =>
    obtain ⟨a, x⟩ := e
    have w' := w
    simp only [Memory.wfFrom, Bool.and_eq_true, decide_eq_true_eq] at w
    simp only [Memory.writeByte]
    split
    · split
      · exact w'
      · rename_i hlt hv
        simp only [Memory.wfFrom, Bool.and_eq_true, decide_eq_true_eq]
        exact ⟨⟨h, by simpa using hv⟩, ⟨by omega, w.1.2⟩, w.2⟩
    · split
      · split
        · exact Memory.wfFrom_mono (by omega) w.2
        · rename_i hba hv
          simp only [Memory.wfFrom, Bool.and_eq_true, decide_eq_true_eq]
          exact ⟨⟨h, by simpa using hv⟩, by subst hba; exact w.2⟩
      · simp only [Memory.wfFrom, Bool.and_eq_true, decide_eq_true_eq]
        exact ⟨w.1, ih w.2 (by omega)⟩

/-- Every write keeps the canonical form. -/
theorem Memory.wf_writeByte {m : Memory} (w : m.wf = true) (b : Nat) (v : Byte) : (m.writeByte b v).wf = true :=
  Memory.wfFrom_writeByte w (Nat.zero_le b) v

theorem Memory.readByte_writeByte {m : Memory} (w : m.wf = true) (b c : Nat) (v : Byte) :
    (m.writeByte b v).readByte c = if c = b then v else m.readByte c := by
  split
  · subst c; exact Memory.readByte_writeByte_self w b v
  · exact Memory.readByte_writeByte_ne m v ‹_›

theorem Memory.eq_of_readByte_eq_from {m m' : Memory} {lo lo' : Nat} (w : m.wfFrom lo = true)
    (w' : m'.wfFrom lo' = true) (h : ∀ b, m.readByte b = m'.readByte b) : m = m' := by
  induction m generalizing m' lo lo' with
  | nil =>
    cases m' with
    | nil => rfl
    | cons e' rest' =>
      obtain ⟨a', v'⟩ := e'
      simp only [Memory.wfFrom, Bool.and_eq_true, decide_eq_true_eq] at w'
      have := h a'
      simp_all [Memory.readByte]
  | cons e rest ih =>
    obtain ⟨a, v⟩ := e
    have w0 := w
    simp only [Memory.wfFrom, Bool.and_eq_true, decide_eq_true_eq] at w
    cases m' with
    | nil =>
      have := h a
      simp_all [Memory.readByte]
    | cons e' rest' =>
      obtain ⟨a', v'⟩ := e'
      have w0' := w'
      simp only [Memory.wfFrom, Bool.and_eq_true, decide_eq_true_eq] at w'
      have ha : a = a' := by
        rcases Nat.lt_trichotomy a a' with hlt | heq | hgt
        · have h2 : Memory.readByte ((a', v') :: rest') a = unlistedByte :=
            Memory.readByte_below (lo := a') (by simp [Memory.wfFrom, w'.1.2, w'.2]) hlt
          have h1 : v = unlistedByte := by simpa [Memory.readByte] using (h a).trans h2
          simp_all
        · exact heq
        · have h1 := h a'
          have h2 : Memory.readByte ((a, v) :: rest) a' = unlistedByte :=
            Memory.readByte_below (lo := a) (by simp [Memory.wfFrom, w.1.2, w.2]) hgt
          rw [h2] at h1
          simp only [Memory.readByte, if_true] at h1
          simp_all
      subst ha
      have hv : v = v' := by simpa [Memory.readByte] using h a
      subst hv
      have hrest : rest = rest' := by
        refine ih w.2 w'.2 (fun b => ?_)
        by_cases hb : a = b
        · subst hb
          rw [Memory.readByte_below w.2 (by omega), Memory.readByte_below w'.2 (by omega)]
        · simpa [Memory.readByte, hb] using h b
      rw [hrest]

/-- The canonical form makes equal contents equal data. -/
theorem Memory.eq_of_readByte_eq {m m' : Memory} (w : m.wf = true) (w' : m'.wf = true)
    (h : ∀ b, m.readByte b = m'.readByte b) : m = m' :=
  Memory.eq_of_readByte_eq_from w w' h

/-! ## Bits -/

/-- R91: the bit written reads as written, every other bit of the byte as before. -/
theorem getBit_setBit (byte : Byte) {o j : Nat} (ho : o < 8) (hj : j < 8) (v : Bool) :
    getBit (setBit byte o v.toNat) j = if j = o then v else getBit byte j := by
  have hv : ¬ (8 ≤ o ∨ 2 ≤ v.toNat) := by cases v <;> simp <;> omega
  simp only [getBit, setBit, hv, if_false]
  by_cases h : j = o
  · subst h
    cases v <;> simp [hj]
  · rcases Nat.lt_or_gt_of_ne h with hlt | hgt
    · cases v <;> simp [hj, h, hlt]
    · have : j - o ≠ 0 := by omega
      cases v <;> simp [hj, h, this, Nat.not_lt.mpr hgt.le]

theorem cwSet_wf {m : Memory} (w : m.wf = true) (i : Nat) (v : Bool) : (cwSet m i v).wf = true :=
  Memory.wf_writeByte w _ _

theorem flipBit_wf {m : Memory} (w : m.wf = true) (i : Nat) : (flipBit m i).wf = true := cwSet_wf w _ _

/-- `CW[i] <- v` "writes bit i and leaves every other bit unchanged" (R13). -/
theorem cwGet_cwSet {m : Memory} (w : m.wf = true) (i j : Nat) (v : Bool) :
    cwGet (cwSet m i v) j = if j = i then v else cwGet m j := by
  unfold cwSet cwGet
  rw [Memory.readByte_writeByte w]
  by_cases hb : j / 8 = i / 8
  · rw [if_pos hb, getBit_setBit _ (by omega) (by omega), ← hb]
    have : j % 8 = i % 8 ↔ j = i := by omega
    simp only [this]
  · rw [if_neg hb, if_neg (by rintro rfl; exact hb rfl)]

/-- R95: one bit is toggled, every other is unchanged. -/
theorem cwGet_flipBit {m : Memory} (w : m.wf = true) (i j : Nat) :
    cwGet (flipBit m i) j = if j = i then !cwGet m i else cwGet m j :=
  cwGet_cwSet w i j _

/-- A write of one bit changes one byte only. -/
theorem readByte_cwSet_ne (m : Memory) {i b : Nat} (v : Bool) (h : b ≠ i / 8) :
    (cwSet m i v).readByte b = m.readByte b :=
  Memory.readByte_writeByte_ne m _ h

theorem getBit_ext {x y : Byte} (h : ∀ o, o < 8 → getBit x o = getBit y o) : x = y :=
  BitVec.eq_of_getLsbD_eq h

/-- Two buffers in canonical form with equal bits are equal. -/
theorem Memory.eq_of_cwGet_eq {m m' : Memory} (w : m.wf = true) (w' : m'.wf = true)
    (h : ∀ i, cwGet m i = cwGet m' i) : m = m' := by
  refine Memory.eq_of_readByte_eq w w' (fun b => getBit_ext (fun o ho => ?_))
  have := h (8 * b + o)
  simp only [cwGet] at this
  rwa [show (8 * b + o) / 8 = b by omega, show (8 * b + o) % 8 = o by omega] at this

/-- R95: "Applying it twice to the same index restores the buffer." -/
theorem flipBit_flipBit {m : Memory} (w : m.wf = true) (i : Nat) : flipBit (flipBit m i) i = m := by
  refine Memory.eq_of_cwGet_eq (flipBit_wf (flipBit_wf w i) i) w (fun j => ?_)
  rw [cwGet_flipBit (flipBit_wf w i), cwGet_flipBit w]
  split
  · subst j; simp
  · rw [cwGet_flipBit w, if_neg ‹_›]

@[simp] theorem cwGet_nil (i : Nat) : cwGet [] i = false := by
  simp [cwGet, getBit, Memory.readByte, unlistedByte]

end Sys2Proof.Machine
end

