-- ==== Sys2Proof/Laws/Codeword.lean ====
section
/-! SUPPORT. What the parity folds, the encoder's walk and the decoder's walk do, one operation at a time. -/

namespace Sys2Proof.Machine

/-! ## Parity of a list of indices -/

@[simp] theorem xorBits_nil (m : Memory) : xorBits m [] = false := rfl

@[simp] theorem xorBits_cons (m : Memory) (i : Nat) (is : List Nat) :
    xorBits m (i :: is) = (cwGet m i ^^ xorBits m is) := rfl

theorem xorBits_append (m : Memory) (is js : List Nat) :
    xorBits m (is ++ js) = (xorBits m is ^^ xorBits m js) := by
  induction is with
  | nil => simp
  | cons i is ih => simp [ih]

/-- The parity depends on the listed bits only. -/
theorem xorBits_congr {m c : Memory} {is : List Nat} (h : ∀ i ∈ is, cwGet m i = cwGet c i) :
    xorBits m is = xorBits c is := by
  induction is with
  | nil => rfl
  | cons i is ih =>
    simp only [xorBits_cons, h i (by simp), ih (fun j hj => h j (by simp [hj]))]

/-- Toggling bit `i` toggles the parity of a list without repeats exactly when `i` is listed (the root of R122). -/
theorem xorBits_flipBit {m : Memory} (w : m.wf = true) (i : Nat) {is : List Nat} (hd : is.Nodup) :
    xorBits (flipBit m i) is = (xorBits m is ^^ decide (i ∈ is)) := by
  induction is with
  | nil => simp
  | cons j js ih =>
    obtain ⟨hj, hjs⟩ := List.nodup_cons.mp hd
    rw [xorBits_cons, xorBits_cons, ih hjs, cwGet_flipBit w]
    by_cases h : j = i
    · subst h
      simp [hj]
    · have : (i ∈ j :: js) ↔ i ∈ js := by simp [Ne.symm h]
      simp [h, this]

/-- Counting the ones modulo 2 is their XOR (R117). -/
theorem countP_cwGet_odd (m : Memory) (is : List Nat) :
    decide (is.countP (cwGet m) % 2 = 1) = xorBits m is := by
  induction is with
  | nil => rfl
  | cons i is ih =>
    rw [xorBits_cons, ← ih, List.countP_cons]
    cases cwGet m i with
    | false => simp
    | true => rcases Nat.mod_two_eq_zero_or_one (is.countP (cwGet m)) with h | h <;> simp [h, Nat.add_mod]

theorem dataIndicesBelow_nodup (t : Nat) : (dataIndicesBelow t).Nodup :=
  List.nodup_range.filter _

theorem mem_dataIndicesBelow {t i : Nat} : i ∈ dataIndicesBelow t ↔ i < t ∧ isDataIndex i = true := by
  simp [dataIndicesBelow]

theorem groupIndices_nodup (t k : Nat) : (groupIndices t k).Nodup := (dataIndicesBelow_nodup t).filter _

theorem mem_groupIndices {t k i : Nat} :
    i ∈ groupIndices t k ↔ i < t ∧ isDataIndex i = true ∧ i.testBit k = true := by
  simp [groupIndices, mem_dataIndicesBelow, and_assoc]

/-! ## The encoder keeps the canonical form -/

theorem placeAt_wf (d : List Byte) {w : Placement} (h : w.buf.wf = true) (i : Nat) : (placeAt d w i).buf.wf = true := by
  unfold placeAt
  split
  · exact h
  · split
    · exact cwSet_wf h _ _
    · exact h

theorem placeAt_foldl_wf (d : List Byte) (is : List Nat) {w : Placement} (h : w.buf.wf = true) :
    (is.foldl (placeAt d) w).buf.wf = true := by
  induction is generalizing w with
  | nil => exact h
  | cons i is ih => exact ih (placeAt_wf d h i)

theorem placeParityAt_foldl_wf (acc : List Nat) (ks : List Nat) {m : Memory} (h : m.wf = true) :
    (ks.foldl (placeParityAt acc) m).wf = true := by
  induction ks generalizing m with
  | nil => exact h
  | cons k ks ih =>
    refine ih ?_
    unfold placeParityAt
    split
    · exact cwSet_wf h _ _
    · exact h

/-- The codeword ENCODE commits is in canonical form. -/
theorem buildCodeword_wf (d : List Byte) (dbits : Nat) : (buildCodeword d dbits).wf = true := by
  have h := placeParityAt_foldl_wf (placeData d (parityCount dbits) (totalCount dbits)).acc
    (List.range (parityCount dbits - 1)) (placeAt_foldl_wf d (List.range (totalCount dbits))
      (w := ⟨[], List.replicate (parityCount dbits) 0, 0⟩) rfl)
  unfold buildCodeword placeMaster
  split
  · exact cwSet_wf h _ _
  · exact h

/-! ## The decoder's output has `DBC div 8` bytes -/

theorem extractAt_length (m : Memory) (w : Extraction) (i : Nat) : (extractAt m w i).out.length = w.out.length := by
  unfold extractAt
  split
  · rfl
  · split <;> simp

theorem extractData_length (m : Memory) (dbits : Nat) : (extractData m dbits).length = dbits / 8 := by
  have h : ∀ (is : List Nat) (w : Extraction), (is.foldl (extractAt m) w).out.length = w.out.length := by
    intro is
    induction is with
    | nil => intro w; rfl
    | cons i is ih => intro w; rw [List.foldl_cons, ih, extractAt_length]
  rw [extractData, h, List.length_replicate]

end Sys2Proof.Machine
end

