-- ==== Sys2Proof/Laws/State.lean ====
section
/-! SUPPORT. One lemma per field and update of the state. -/

namespace Sys2Proof.Machine

namespace State

variable (s : State) (m : Memory) (d : BitVec 12) (r : Response) (b : List Byte) (p : List HostAction)

@[simp] theorem setCw_config : (s.setCw m).config = s.config := rfl
@[simp] theorem setCw_cw : (s.setCw m).cw = m := rfl
@[simp] theorem setCw_dbc : (s.setCw m).dbc = s.dbc := rfl
@[simp] theorem setCw_din : (s.setCw m).din = s.din := rfl
@[simp] theorem setCw_pending : (s.setCw m).pending = s.pending := rfl
@[simp] theorem setCw_responses : (s.setCw m).responses = s.responses := rfl
@[simp] theorem setCw_cuts : (s.setCw m).cuts = s.cuts := rfl

@[simp] theorem setDbc_config : (s.setDbc d).config = s.config := rfl
@[simp] theorem setDbc_cw : (s.setDbc d).cw = s.cw := rfl
@[simp] theorem setDbc_dbc : (s.setDbc d).dbc = d := rfl
@[simp] theorem setDbc_din : (s.setDbc d).din = s.din := rfl
@[simp] theorem setDbc_pending : (s.setDbc d).pending = s.pending := rfl
@[simp] theorem setDbc_responses : (s.setDbc d).responses = s.responses := rfl
@[simp] theorem setDbc_cuts : (s.setDbc d).cuts = s.cuts := rfl

@[simp] theorem addResponse_config : (s.addResponse r).config = s.config := rfl
@[simp] theorem addResponse_cw : (s.addResponse r).cw = s.cw := rfl
@[simp] theorem addResponse_dbc : (s.addResponse r).dbc = s.dbc := rfl
@[simp] theorem addResponse_din : (s.addResponse r).din = s.din := rfl
@[simp] theorem addResponse_pending : (s.addResponse r).pending = s.pending := rfl
@[simp] theorem addResponse_responses : (s.addResponse r).responses = s.responses ++ [r] := rfl
@[simp] theorem addResponse_cuts : (s.addResponse r).cuts = s.cuts := rfl

@[simp] theorem present_config : (s.present b p).config = s.config := rfl
@[simp] theorem present_cw : (s.present b p).cw = s.cw := rfl
@[simp] theorem present_dbc : (s.present b p).dbc = s.dbc := rfl
@[simp] theorem present_din : (s.present b p).din = b := rfl
@[simp] theorem present_pending : (s.present b p).pending = p := rfl
@[simp] theorem present_responses : (s.present b p).responses = s.responses := rfl
@[simp] theorem present_cuts : (s.present b p).cuts = s.cuts := rfl

@[simp] theorem setPending_config : (s.setPending p).config = s.config := rfl
@[simp] theorem setPending_cw : (s.setPending p).cw = s.cw := rfl
@[simp] theorem setPending_dbc : (s.setPending p).dbc = s.dbc := rfl
@[simp] theorem setPending_din : (s.setPending p).din = s.din := rfl
@[simp] theorem setPending_pending : (s.setPending p).pending = p := rfl
@[simp] theorem setPending_responses : (s.setPending p).responses = s.responses := rfl
@[simp] theorem setPending_cuts : (s.setPending p).cuts = s.cuts := rfl

@[simp] theorem resetBlock_config : s.resetBlock.config = s.config := rfl
@[simp] theorem resetBlock_cw : s.resetBlock.cw = [] := rfl
@[simp] theorem resetBlock_dbc : s.resetBlock.dbc = 0 := rfl
@[simp] theorem resetBlock_din : s.resetBlock.din = s.din := rfl
@[simp] theorem resetBlock_pending : s.resetBlock.pending = s.pending := rfl
@[simp] theorem resetBlock_responses : s.resetBlock.responses = s.responses := rfl
@[simp] theorem resetBlock_cuts : s.resetBlock.cuts = s.cuts := rfl

@[simp] theorem resetDuringCommand_config : s.resetDuringCommand.config = s.config := rfl
@[simp] theorem resetDuringCommand_cw : s.resetDuringCommand.cw = [] := rfl
@[simp] theorem resetDuringCommand_dbc : s.resetDuringCommand.dbc = 0 := rfl
@[simp] theorem resetDuringCommand_din : s.resetDuringCommand.din = s.din := rfl
@[simp] theorem resetDuringCommand_pending : s.resetDuringCommand.pending = s.pending := rfl
@[simp] theorem resetDuringCommand_responses :
    s.resetDuringCommand.responses = s.responses ++ (Config.cutResponse s.cuts).toList := rfl
@[simp] theorem resetDuringCommand_cuts : s.resetDuringCommand.cuts = s.cuts + 1 := rfl

@[simp] theorem setCw_total : (s.setCw m).total = s.total := rfl
@[simp] theorem addResponse_total : (s.addResponse r).total = s.total := rfl
@[simp] theorem present_total : (s.present b p).total = s.total := rfl

end State

end Sys2Proof.Machine
end

