-- ==== Sys2Proof/Laws/Ops.lean ====
section
/-! SUPPORT. What the shared operations can do, said once, and the two ways a command can end. -/

namespace Sys2Proof.Machine

/-- `respond` always goes on, and adds the one response. -/
theorem respond_next {r : Response} {s t : State} (h : respond r s = .next t) : t = s.addResponse r := by
  simpa [respond] using h.symm

/-- Taking a fault always goes on, with the fault's response and nothing else changed (R177). -/
theorem raise_next {k : FaultKind} {s t : State} (h : raise k s = .next t) :
    t = s.addResponse (faultResponse s.config k) := respond_next h

theorem needCodeword_empty {s : State} {b : Host.Outcome State Fault Refusal} (h : s.dbc = 0) :
    needCodeword s b = raise .emptyObject s := by simp [needCodeword, h]

theorem needCodeword_of_fits {s : State} {b : Host.Outcome State Fault Refusal} (h : s.dbc ≠ 0)
    (f : s.total ≤ cwBits s.config) : needCodeword s b = b := by
  rw [needCodeword, if_neg h, if_neg (Nat.not_lt.mpr f)]

/-- All that the first test of FLIP, DIAG and DECODE lets through (R175). -/
theorem needCodeword_next {s t : State} {b : Host.Outcome State Fault Refusal} (h : needCodeword s b = .next t) :
    (s.dbc = 0 ∧ t = s.addResponse (faultResponse s.config .emptyObject)) ∨
    (s.dbc ≠ 0 ∧ s.total ≤ cwBits s.config ∧ b = .next t) := by
  unfold needCodeword at h
  split at h
  · exact .inl ⟨‹_›, raise_next h⟩
  · split at h
    · cases h
    · exact .inr ⟨‹_›, by omega, h⟩

/-- All that FLIP can do. -/
theorem execFlip_next {i : Nat} {s t : State} (h : execFlip i s = .next t) :
    (s.dbc = 0 ∧ t = s.addResponse (faultResponse s.config .emptyObject)) ∨
    (s.dbc ≠ 0 ∧ s.total ≤ i ∧ t = s.addResponse (faultResponse s.config .indexOutOfRange)) ∨
    (s.dbc ≠ 0 ∧ i < s.total ∧ s.total ≤ cwBits s.config ∧
      t = (s.setCw (flipBit s.cw i)).addResponse (plainResponse s.config)) := by
  obtain h | ⟨hd, hf, h⟩ := needCodeword_next h
  · exact .inl h
  · split at h
    · exact .inr (.inl ⟨hd, ‹_›, raise_next h⟩)
    · exact .inr (.inr ⟨hd, by omega, hf, respond_next h⟩)

/-- All that step 4 of DIAG can do (R145 to R148). -/
theorem correct_next {st : Status} {syn : Nat} {s t : State} (h : correct st syn s = .next t) :
    (st = .multiBitError ∧ t = s.addResponse (reportResponse s.config st syn)) ∨
    (st = .noError ∧ t = s.addResponse (reportResponse s.config st 0)) ∨
    (st ≠ .multiBitError ∧ st ≠ .noError ∧ s.total ≤ syn ∧
      t = s.addResponse (faultResponse s.config .indexOutOfRange)) ∨
    (st ≠ .multiBitError ∧ st ≠ .noError ∧ syn < s.total ∧
      t = (s.setCw (flipBit s.cw syn)).addResponse (reportResponse s.config st syn)) := by
  cases st with
  | multiBitError => exact .inl ⟨rfl, respond_next h⟩
  | noError => exact .inr (.inl ⟨rfl, respond_next h⟩)
  | masterParityBitError | parityBitError | dataBitError =>
    simp only [correct] at h
    split at h
    · exact .inr (.inr (.inl ⟨by decide, by decide, ‹_›, raise_next h⟩))
    · exact .inr (.inr (.inr ⟨by decide, by decide, by omega, respond_next h⟩))

/-- All that DIAG can do. -/
theorem execDiag_next {s t : State} (h : execDiag s = .next t) :
    (s.dbc = 0 ∧ t = s.addResponse (faultResponse s.config .emptyObject)) ∨
    (s.dbc ≠ 0 ∧ s.total ≤ cwBits s.config ∧ correct s.status s.syndrome s = .next t) :=
  needCodeword_next h

/-- All that DECODE can do. -/
theorem execDecode_next {s t : State} (h : execDecode s = .next t) :
    (s.dbc = 0 ∧ t = s.addResponse (faultResponse s.config .emptyObject)) ∨
    (s.dbc ≠ 0 ∧ s.total ≤ cwBits s.config ∧
      t = s.addResponse (dataResponse s.config (extractData s.cw s.dbc.toNat))) := by
  obtain h | ⟨hd, hf, h⟩ := needCodeword_next h
  · exact .inl h
  · exact .inr ⟨hd, hf, respond_next h⟩

/-- The input checks of ENCODE let through exactly the admitted lengths (R10, R131). -/
theorem encodeRejects_eq_false {c : Config} {len : Nat} : encodeRejects c len = false ↔ Admitted c len := by
  simp [encodeRejects, Admitted, Nat.one_le_iff_ne_zero, and_assoc]

/-- All that ENCODE can do. -/
theorem execEncode_next {len : Nat} {s t : State} (h : execEncode len s = .next t) :
    (¬ Admitted s.config len ∧ t = s.addResponse (faultResponse s.config .invalidInput)) ∨
    (Admitted s.config len ∧
      t = ((s.setCw (buildCodeword s.din (8 * len))).setDbc (BitVec.ofNat 12 (8 * len))).addResponse
        (plainResponse s.config)) := by
  unfold execEncode at h
  split at h
  · refine .inl ⟨fun ha => ?_, raise_next h⟩
    simp_all [encodeRejects_eq_false.mpr ha]
  · exact .inr ⟨encodeRejects_eq_false.mp (Bool.eq_false_iff.mpr ‹_›), respond_next h⟩

/-- ENCODE answers a next state in every state. -/
theorem execEncode_goes_on (len : Nat) (s : State) : ∃ t, execEncode len s = .next t := by
  unfold execEncode
  split <;> exact ⟨_, rfl⟩

theorem correct_goes_on (st : Status) (syn : Nat) (s : State) : ∃ t, correct st syn s = .next t := by
  unfold correct
  split
  · exact ⟨_, rfl⟩
  · exact ⟨_, rfl⟩
  all_goals split <;> exact ⟨_, rfl⟩

/-- All that a step can do. -/
theorem step_next {s t : State} (h : step s = .next t) :
    (s.pending = [] ∧ t = s) ∨
    (∃ w d rest i, s.pending = .command w d :: rest ∧ decode w = .ok i ∧ exec i (s.present d rest) = .next t) ∨
    (∃ w d rest e, s.pending = .command w d :: rest ∧ decode w = .error e ∧
      t = (s.present d rest).addResponse (faultResponse s.config .illegalCommand)) ∨
    (∃ rest, s.pending = .reset :: rest ∧ t = (s.setPending rest).resetBlock) ∨
    (∃ w d rest, s.pending = .resetDuring w d :: rest ∧ t = (s.present d rest).resetDuringCommand) := by
  unfold step at h
  split at h
  · exact .inl ⟨‹_›, by simpa using h.symm⟩
  · rename_i w d rest hp
    cases hd : decode w with
    | ok i =>
      rw [hd] at h
      exact .inr (.inl ⟨w, d, rest, i, hp, hd, h⟩)
    | error e =>
      rw [hd] at h
      exact .inr (.inr (.inl ⟨w, d, rest, e, hp, hd, raise_next h⟩))
  · exact .inr (.inr (.inr (.inl ⟨_, ‹_›, by simpa using h.symm⟩)))
  · exact .inr (.inr (.inr (.inr ⟨_, _, _, ‹_›, by simpa using h.symm⟩)))
  · cases h

end Sys2Proof.Machine
end

