-- ==== Sys2Proof/Laws/PerInstr.lean ====
section
/-! SUPPORT. Statements made command by command. -/

namespace Sys2Proof.Laws.MatchesTableRow

/-- The row `(mask, match)` of the opcode map a command belongs to (R63). -/
def row : Instr → Word × Word
  | .encode _ => (0xF000, 0x1000)
  | .diag => (0xFFFF, 0x2000)
  | .decode => (0xFFFF, 0x3000)
  | .flip _ => (0xF000, 0x4000)

/-- The encoder's word selects the command's row: `w & mask = match` (R63). -/
def Statement (i : Instr) : Prop := encode i &&& (row i).1 = (row i).2

theorem formatC_opcode (opc : BitVec 4) (arg : BitVec 12) : (opc ++ arg : Word) &&& 0xF000 = opc ++ 0#12 := by
  apply BitVec.eq_of_getLsbD_eq
  intro i hi
  simp only [BitVec.getLsbD_and, BitVec.getLsbD_append]
  interval_cases i <;> simp

theorem encode (len : Nat) : Statement (.encode len) := formatC_opcode 1 (BitVec.ofNat 12 len)

theorem diag : Statement .diag := by unfold Statement; decide

theorem decode : Statement .decode := by unfold Statement; decide

theorem flip (index : Nat) : Statement (.flip index) := formatC_opcode 4 (BitVec.ofNat 12 index)

end Sys2Proof.Laws.MatchesTableRow
end

