-- ==== Sys2Proof/Tests/Slice0.lean ====
section
/-! SUPPORT. Tests: expected values from `95_test_vectors.md` and the rules named; then, for every statement with
hypotheses, a named witness that meets them together. -/

namespace Sys2Proof.Tests

-- One theorem at a time: the kernel evaluations below would otherwise each hold a thread, and its stack, at once.
set_option Elab.async false

open Sys2Proof Sys2Proof.Machine

/-! ## Helpers -/

/-- Bytes from numbers, as the vectors list them. -/
def bytes (l : List Nat) : List Byte := l.map (BitVec.ofNat 8)

/-- A one-byte codeword (DBC = 8, T = 13) with buffer bytes `b0 b1`, in the reference configuration. -/
def oneByte (b0 b1 : Byte) : State := { State.reset with cw := [(0, b0), (1, b1)], dbc := 8 }

/-- The reset state with `d` on DIN. -/
def onDin (d : List Nat) : State := { State.reset with din := bytes d }

/-- CW and DBC after a step that goes on. -/
def blockAfter : Host.Outcome State Fault Refusal → Option (Memory × Nat)
  | .next t => some (t.cw, t.dbc.toNat)
  | _ => none

/-- FAULT, RPT, DOUT_LEN and the valid DOUT bytes of the last response, after a step that goes on. -/
def answer : Host.Outcome State Fault Refusal → Option (Nat × Nat × Nat × List Nat)
  | .next t => t.responses.getLast?.map
      (fun r => (r.fault.toNat, r.rpt.toNat, r.doutLen.toNat, (r.dout.take r.doutLen.toNat).map (·.toNat)))
  | _ => none

/-- Whether a step goes on. -/
def goesOn : Host.Outcome State Fault Refusal → Bool
  | .next _ => true
  | _ => false

/-- What `goesOn` says of the statements' hypotheses `… = .next t`. -/
theorem exists_next_of_goesOn {o : Host.Outcome State Fault Refusal} (h : goesOn o = true) : ∃ t, o = .next t := by
  cases o with
  | next t => exact ⟨t, rfl⟩
  | fault r => cases h
  | refused r => cases h

/-- A second command after one that goes on. -/
def thenExec (i : Instr) : Host.Outcome State Fault Refusal → Host.Outcome State Fault Refusal
  | .next t => exec i t
  | o => o

/-! ## Decoding (2.8), each word written out from R61 and R63; and WellFormed -/

theorem test_decode_encode_word : decode 0b0001000000000100 = .ok (.encode 4) := by decide
theorem test_decode_encode_largest : decode 0b0001111111111111 = .ok (.encode 4095) := by decide
theorem test_decode_diag_word : decode 0b0010000000000000 = .ok .diag := by decide
theorem test_decode_decode_word : decode 0b0011000000000000 = .ok .decode := by decide
theorem test_decode_flip_word : decode 0b0100000000000110 = .ok (.flip 6) := by decide
theorem test_decode_flip_topBit : decode 0b0100100000000001 = .ok (.flip 2049) := by decide
theorem test_diag_with_argument : decode 0x2001 = .error .diagWithArgument := by decide
theorem test_decode_with_argument : decode 0x3FFF = .error .decodeWithArgument := by decide
theorem test_zero_word_is_illegal : decode 0x0000 = .error .noSuchOpcode := by decide
theorem test_opcode_fifteen_is_illegal : decode 0xFFFF = .error .noSuchOpcode := by decide
theorem test_encode_flip_word : encode (.flip 13) = 0x400D := by decide
theorem test_encode_encode_word : encode (.encode 30) = 0x101E := by decide
theorem test_table_word : decodeTableWord 16 0x4006 = some (.flip 6) ∧ decodeTableWord 16 0x5000 = none := by decide

/-- WellFormed refuses an ARG of 13 bits, for both commands that have one. -/
theorem test_illformed_encode : (Instr.encode 4096).wellFormed = false := by decide
theorem test_illformed_flip : (Instr.flip 4096).wellFormed = false := by decide
theorem test_wellformed_at_the_bound : (Instr.encode 4095).WellFormed ∧ (Instr.flip 4095).WellFormed := by decide

/-! ## Bit plane, sizes, index map -/

/-- 2.1. -/
theorem test_getBit :
    [getBit 0x90 0, getBit 0x90 4, getBit 0x90 7, getBit 0x7F 7] = [false, true, true, false] := by decide
/-- 2.1. -/
theorem test_setBit :
    [setBit 0x00 0 1, setBit 0x00 7 1, setBit 0x04 2 1, setBit 0xFF 3 0, setBit 0x04 8 1, setBit 0x04 1 2] =
      [0x01, 0x80, 0x04, 0xF7, 0x04, 0x04] := by decide
/-- 2.1. -/
theorem test_isPowerOfTwo :
    [0, 1, 2, 3, 4, 5, 6, 7, 8, 9, 12, 15, 16, 17, 24, 32, 63, 64, 128, 248, 255, 256].map isPowerOfTwo =
      [true, true, true, false, true, false, false, false, true, false, false, false, true, false, false, true,
       false, true, true, false, false, true] := by decide +kernel
/-- R43, the table of pos(n) for n = 0 to 15. -/
theorem test_pos :
    (List.range 16).map pos = [3, 5, 6, 7, 9, 10, 11, 12, 13, 14, 15, 17, 18, 19, 20, 21] := by decide +kernel
/-- R115, rows 1, 2, 3, 4, 7, 8, 15, 16, 30. -/
theorem test_sizes :
    [8, 16, 24, 32, 56, 64, 120, 128, 240].map sizes =
      [some (5, 13, 2), some (6, 22, 3), some (6, 30, 4), some (7, 39, 5), some (7, 63, 8), some (8, 72, 9),
       some (8, 128, 16), some (9, 137, 18), some (9, 249, 32)] := by decide +kernel
/-- 2.2: 30 and 62 bytes are well-sized, 31 and 63 are not. -/
theorem test_wellSized :
    [240, 248, 496, 504].map wellSized = [true, false, true, false] := by decide +kernel
/-- R8, the reference configuration: MAX_DBC, CW_BYTES, CW_BITS, MAX_T, MAX_P. -/
theorem test_reference_sizes :
    (maxDbc .reference, cwBytes .reference, cwBits .reference, maxTotal .reference, maxParity .reference) =
      (240, 32, 256, 249, 9) := by decide +kernel

/-! ## The four commands, one step each -/

/-- R136. -/
theorem test_encode_scenario : blockAfter (exec (.encode 4) (onDin [0x90, 0x01, 0x0A, 0x20])) =
    some ([(0, 0x04), (1, 0x32), (2, 0x80), (3, 0x02), (4, 0x11)], 32) := by decide +kernel
/-- 2.4: ENCODE FF, over a longer codeword that leaves no residue. -/
theorem test_encode_replaces :
    blockAfter (exec (.encode 1) { onDin [0xFF] with cw := [(0, 0x04), (4, 0x11)], dbc := 32 }) =
      some ([(0, 0xEE), (1, 0x1E)], 8) := by decide +kernel
/-- 2.5: FLIP 12, then the first index past T. -/
theorem test_flip_last_index : blockAfter (exec (.flip 12) (oneByte 0x4E 0x14)) =
    some ([(0, 0x4E), (1, 0x04)], 8) := by decide +kernel
theorem test_flip_padding_faults : answer (exec (.flip 13) (oneByte 0x4E 0x14)) = some (3, 0, 0, []) := by
  decide +kernel
/-- Program 2, step 4. -/
theorem test_diag_data_bit : (blockAfter (exec .diag (oneByte 0x0E 0x14)), answer (exec .diag (oneByte 0x0E 0x14))) =
    (some ([(0, 0x4E), (1, 0x14)], 8), some (0, 0x7006, 0, [])) := by decide +kernel
/-- Program 5, step 5: the syndrome is 13 = T. -/
theorem test_diag_syndrome_out_of_range :
    (blockAfter (exec .diag (oneByte 0x4D 0x04)), answer (exec .diag (oneByte 0x4D 0x04))) =
      (some ([(0, 0x4D), (1, 0x04)], 8), some (3, 0, 0, [])) := by decide +kernel
/-- 2.7: bit 6 flipped, not diagnosed. -/
theorem test_decode_corrupted : answer (exec .decode (oneByte 0x0E 0x14)) = some (0, 0, 1, [0xA1]) := by
  decide +kernel
/-- 2.7, two bytes. -/
theorem test_decode_two_bytes :
    answer (exec .decode { State.reset with cw := [(0, 0x25), (1, 0x80), (2, 0x0C)], dbc := 16 }) =
      some (0, 0, 2, [0x02, 0x34]) := by decide +kernel

/-! ## The step -/

/-- 2.8: from reset 0x2001 gives FAULT 4, not 2, and 0x4FFF gives FAULT 2, not 3. -/
theorem test_fault_priority :
    answer (step (State.reset.withFetchWord 16 0x2001)) = some (4, 0, 0, []) ∧
    answer (step (State.reset.withFetchWord 16 0x4FFF)) = some (2, 0, 0, []) := by decide +kernel
/-- 2.4: a length over MAX_DATA_BYTES. -/
theorem test_step_encode_too_long :
    answer (step (State.reset.withFetchWord 16 0x1FFF)) = some (1, 0, 0, []) := by decide +kernel
theorem test_step_reset :
    blockAfter (step { oneByte 0x4E 0x14 with pending := [.reset] }) = some ([], 0) := by decide
/-- R78. -/
theorem test_assemble : assemble [.encode (bytes [0xA5]), .flip 6, .reset] =
    some [.command 0x1001 (bytes [0xA5]), .command 0x4006 [], .reset] := by decide

/-! ## Witnesses: states that meet the statements' hypotheses -/

theorem admitted_one : Admitted Config.reference 1 := by decide +kernel
theorem admitted_thirty : Admitted Config.reference 30 := by decide +kernel
theorem oneByte_total (b0 b1 : Byte) : (oneByte b0 b1).total = 13 := by
  show totalCount 8 = 13
  decide +kernel

theorem oneByte_padding {b0 b1 : Byte} (h : b1.toNat < 32) (i : Nat) (hi : 13 ≤ i) :
    cwGet [(0, b0), (1, b1)] i = false := by
  unfold cwGet getBit
  rcases Nat.lt_or_ge i 16 with hlt | hge
  · have h1 : i / 8 = 1 := by omega
    simp only [h1, Memory.readByte, zero_ne_one, if_false, if_true]
    apply Nat.testBit_lt_two_pow
    calc b1.toNat < 2 ^ 5 := h
      _ ≤ 2 ^ (i % 8) := Nat.pow_le_pow_right (by decide) (by omega)
  · have h0 : (0 : Nat) ≠ i / 8 := by omega
    have h1 : (1 : Nat) ≠ i / 8 := by omega
    simp [Memory.readByte, h0, h1, unlistedByte]

theorem twoBytes_wf {b0 b1 : Byte} (h0 : b0 ≠ 0) (h1 : b1 ≠ 0) : Memory.wf [(0, b0), (1, b1)] = true := by
  have e0 : (b0 != unlistedByte) = true := bne_iff_ne.mpr h0
  have e1 : (b1 != unlistedByte) = true := bne_iff_ne.mpr h1
  simp only [Memory.wf, Memory.wfFrom, e0, e1]
  decide

theorem oneByte_holds {b0 b1 : Byte} (h0 : b0 ≠ 0) (h1 : b1 ≠ 0) (h : b1.toNat < 32) : (oneByte b0 b1).Holds where
  inv := {
    config := (by decide : Config.reference.Admissible)
    canonical := twoBytes_wf h0 h1
    dbc := .inr ⟨1, admitted_one, (by decide : (8 : BitVec 12).toNat = 8 * 1)⟩
    padding := fun i hi => oneByte_padding h i (by rwa [oneByte_total] at hi) }
  nonempty := (by decide : (8 : BitVec 12) ≠ 0)

/-- The codeword of A5 (2.4): a state that holds a consistent codeword. -/
theorem a5_holds : (oneByte 0x4E 0x14).Holds := oneByte_holds (by decide) (by decide) (by decide)

theorem a5_consistent : (oneByte 0x4E 0x14).Consistent where
  groups := fun k hk => by
    have hk : k + 2 ≤ parityCount 8 := hk
    rw [show parityCount 8 = 5 by decide +kernel] at hk
    have : k < 4 := by omega
    interval_cases k <;> decide +kernel
  master := by decide +kernel
  padding := fun i hi => oneByte_padding (by decide) i (by
    rwa [show totalCount (oneByte 0x4E 0x14).dbc.toNat = 13 from oneByte_total _ _] at hi)

theorem witness_StepRunsThePresentedCommand :
    (State.reset.withFetchWord 16 0x1001).pending = .command 0x1001 [] :: [] ∧ decode 0x1001 = .ok (.encode 1) := by
  decide
theorem witness_IllegalWordRaisesIllegalCommand :
    (State.reset.withFetchWord 16 0xFFFF).pending = .command 0xFFFF [] :: [] ∧
      decode 0xFFFF = .error .noSuchOpcode := by decide
theorem witness_ResetEmptiesTheBlock :
    ({ oneByte 0x4E 0x14 with pending := [.reset] } : State).pending = .reset :: [] := rfl
theorem witness_ResetDuringACommandEmptiesTheBlock :
    ({ oneByte 0x4E 0x14 with pending := [.resetDuring 0x2000 []] } : State).pending =
      .resetDuring 0x2000 [] :: [] := rfl
theorem witness_OverlappingCommandsAreRefused :
    ({ oneByte 0x4E 0x14 with pending := [.overlap 0x2000 0x3000] } : State).pending =
      .overlap 0x2000 0x3000 :: [] := rfl
theorem witness_IdleBlockHoldsItsState : (oneByte 0x4E 0x14).pending = [] := rfl
theorem witness_ResetHasTheInvariant : Config.reference.Admissible ∧ (Config.mk 510).Admissible := by decide
/-- A step from a state with the invariant, that goes on, with no overlap ahead. -/
theorem witness_EveryStepKeepsTheInvariant :
    (oneByte 0x4E 0x14).Inv ∧ step (oneByte 0x4E 0x14) = .next (oneByte 0x4E 0x14) ∧
      (oneByte 0x4E 0x14).overlapNext = false := ⟨a5_holds.inv, rfl, rfl⟩
theorem witness_NoStepChangesTheConfiguration : step State.reset = .next State.reset := rfl
/-- Every bit index of the buffer, the last one included. -/
theorem witness_StatusOutputsShowTheState : 255 < cwBits (oneByte 0x4E 0x14).config := by decide +kernel
theorem witness_SetBitWritesOneBitOfAByte : (7 < 8 ∧ 1 < 2) ∧ 8 ≤ 8 ∧ 2 ≤ 2 := by decide
theorem witness_AssembledLinesDecodeToTheirCommands : (bytes [0xA5]).length < 4096 ∧ 4095 < 4096 := by decide

/-- FlipTogglesTheBit, FlipTwiceRestoresTheCodeword, DecodeSeesOnlyDataIndices, DiagRepairsEverySingleFlip: the last
valid index. Its first two parts serve DiagOfAConsistentCodewordIsNoError, ReservedIndicesOfAHeldCodeword and
DecodeReturnsTheDataBits. -/
theorem witness_flip_at_a_valid_index :
    (oneByte 0x4E 0x14).Holds ∧ (oneByte 0x4E 0x14).Consistent ∧ 12 < (oneByte 0x4E 0x14).total :=
  ⟨a5_holds, a5_consistent, by decide +kernel⟩
/-- DiagRepairsEverySingleFlip: an index for each row of its report table, the master bit, a parity bit (8 = 2^(P-2),
the last one) and a data bit (12, the last one). -/
theorem witness_single_flip_kinds :
    (oneByte 0x4E 0x14).Holds ∧ (oneByte 0x4E 0x14).Consistent ∧ (∀ i ∈ [0, 8, 12], i < (oneByte 0x4E 0x14).total) ∧
      (isPowerOfTwo 8 = true ∧ 8 ≠ 0) ∧ isPowerOfTwo 12 = false :=
  ⟨a5_holds, a5_consistent, by decide +kernel, by decide, by decide⟩
/-- DiagDetectsEveryDoubleFlip: the master bit and the last index. -/
theorem witness_double_flip :
    (oneByte 0x4E 0x14).Holds ∧ (oneByte 0x4E 0x14).Consistent ∧ 0 < (oneByte 0x4E 0x14).total ∧
      12 < (oneByte 0x4E 0x14).total ∧ 0 ≠ 12 :=
  ⟨a5_holds, a5_consistent, by decide +kernel, by decide +kernel, by decide⟩
/-- DiagNeverUndoesATripleFlip: the clause of the fault (0, 1, 12 give 13 = T) and that of the flip (3, 5, 10 give 12,
the last valid index). -/
theorem witness_triple_flip :
    (oneByte 0x4E 0x14).Holds ∧ (oneByte 0x4E 0x14).Consistent ∧ (∀ i ∈ [0, 1, 3, 5, 10, 12], i < (oneByte 0x4E 0x14).total) ∧
      (oneByte 0x4E 0x14).total ≤ 0 ^^^ 1 ^^^ 12 ∧ 3 ^^^ 5 ^^^ 10 < (oneByte 0x4E 0x14).total :=
  ⟨a5_holds, a5_consistent, by decide +kernel, by decide +kernel, by decide +kernel⟩
theorem witness_FlipOutOfRangeFaults :
    (oneByte 0x4E 0x14).dbc ≠ 0 ∧ (oneByte 0x4E 0x14).Fits ∧ (oneByte 0x4E 0x14).total ≤ 13 := by decide +kernel
/-- FlipTwiceRestoresTheCodeword: both FLIPs go on. -/
theorem witness_flip_twice :
    goesOn (exec (.flip 3) (oneByte 0x4E 0x14)) = true ∧
      goesOn (thenExec (.flip 3) (exec (.flip 3) (oneByte 0x4E 0x14))) = true := by decide +kernel
/-- FlipFrame, DiagFrame and DecodeFrame. -/
theorem witness_frames :
    (oneByte 0x4E 0x14).cw.wf = true ∧ goesOn (exec (.flip 3) (oneByte 0x4E 0x14)) = true ∧
      goesOn (exec .diag (oneByte 0x4E 0x14)) = true ∧ goesOn (exec .decode (oneByte 0x4E 0x14)) = true := by
  decide +kernel

theorem witness_WellSizedByLogarithms : 1 ≤ 8 := by decide
theorem witness_IllSizedLengthsAreOneBelowPowers : 1 ≤ 4095 ∧ 4095 ≤ 8189 ∧ 4095 = 2 ^ 12 - 1 := by decide
/-- And LargestCountsBoundEveryLength: the longest length. -/
theorem witness_BufferHoldsEveryAdmittedCodeword : byteLength 8 ≤ byteLength 240 ∧ 30 ≤ Config.reference.maxDataBytes := by
  decide +kernel
/-- EncodeBuildsTheConsistentCodeword, DecodeAfterEncodeReturnsTheData, QuantitiesFitTheirFields: the longest admitted
length of the reference configuration; DataSurvivesOneFlipAndDiag: with the last valid index. -/
theorem witness_admitted_length :
    (onDin [1, 2, 3]).config.Admissible ∧ Admitted (onDin [1, 2, 3]).config 30 ∧ 248 < totalCount (8 * 30) := by
  decide +kernel
/-- DataIndicesAreThePositions, EveryDataIndexIsCoveredTwice: data index 12, the last below T(8). -/
theorem witness_data_index : wellSized 8 = true ∧ 12 < totalCount 8 ∧ isDataIndex 12 = true := by decide +kernel
/-- PosIsTheNthDataIndex: both ends of the range of `m = 3`. -/
theorem witness_PosIsTheNthDataIndex :
    (2 ^ 3 ≤ 4 + 3 + 1 ∧ 4 + 3 + 3 ≤ 2 ^ 4) ∧ 2 ^ 3 ≤ 10 + 3 + 1 ∧ 10 + 3 + 3 ≤ 2 ^ 4 := by decide
/-- OneFlipMovesTheParities: a data index and a reserved one, both valid; OverallEvenComparesTheMasterBit. -/
theorem witness_OneFlipMovesTheParities :
    (oneByte 0x4E 0x14).cw.wf = true ∧ (12 < 13 ∧ isDataIndex 12 = true) ∧ (0 < 13 ∧ isPowerOfTwo 0 = true) ∧ 1 ≤ 13 := by
  decide
theorem witness_SyndromeBitsAreTheDisagreements : 3 + 2 ≤ parityCount 8 := by decide +kernel
/-- SyndromeIsTheXorOfTheDamage, ConsistentCodewordIsUnique. -/
theorem witness_consistent_codeword :
    wellSized 8 = true ∧ Memory.wf [(0, 0x4E), (1, 0x14)] = true ∧ Consistent [(0, 0x4E), (1, 0x14)] 8 :=
  ⟨by decide +kernel, by decide, a5_consistent⟩
/-- EncodeRejectsInadmissibleLengths: each of the three causes at its boundary. -/
theorem witness_EncodeRejectsInadmissibleLengths :
    State.reset.config.maxDataBytes < 31 ∧ wellSized (8 * 31) = false ∧ wellSized (8 * 255) = false := by decide +kernel
/-- EncodeIgnoresHigherLanes: lane 1 differs. -/
theorem witness_EncodeIgnoresHigherLanes :
    (∀ k, k < 1 → (bytes [0xA5, 7]).getD k 0 = (onDin [0xA5]).din.getD k 0) ∧
      ∃ t, exec (.encode 1) (onDin [0xA5]) = .next t :=
  ⟨by decide, execEncode_goes_on 1 _⟩
theorem witness_EncodeFrame :
    (oneByte 0x4E 0x14).Inv ∧ (∃ t, exec (.encode 31) (oneByte 0x4E 0x14) = .next t) ∧
      ¬ Admitted (oneByte 0x4E 0x14).config 31 ∧ cwBytes (oneByte 0x4E 0x14).config ≤ 32 :=
  ⟨a5_holds.inv, execEncode_goes_on 31 _, by decide +kernel, by decide +kernel⟩

/-- DiagFollowsTheDecisionTable, one witness a row: NoError, master, double (5 and 6), parity bit 8, data bit 12, and a
syndrome of 13 = T. -/
theorem witness_diag_noError :
    (oneByte 0x4E 0x14).Holds ∧ (oneByte 0x4E 0x14).syndrome = 0 ∧ (oneByte 0x4E 0x14).even = true :=
  ⟨a5_holds, by decide +kernel, by decide +kernel⟩
theorem witness_diag_master :
    (oneByte 0x4F 0x14).Holds ∧ (oneByte 0x4F 0x14).syndrome = 0 ∧ (oneByte 0x4F 0x14).even = false :=
  ⟨oneByte_holds (by decide) (by decide) (by decide), by decide +kernel, by decide +kernel⟩
theorem witness_diag_double :
    (oneByte 0x2E 0x14).Holds ∧ (oneByte 0x2E 0x14).syndrome = 3 ∧ (oneByte 0x2E 0x14).even = true :=
  ⟨oneByte_holds (by decide) (by decide) (by decide), by decide +kernel, by decide +kernel⟩
theorem witness_diag_parity :
    (oneByte 0x4E 0x15).Holds ∧ (oneByte 0x4E 0x15).syndrome = 2 ^ 3 ∧ (oneByte 0x4E 0x15).even = false :=
  ⟨oneByte_holds (by decide) (by decide) (by decide), by decide +kernel, by decide +kernel⟩
theorem twelve_is_no_power : ¬ ∃ k, 12 = 2 ^ k := by
  rintro ⟨k, hk⟩
  rcases Nat.lt_or_ge k 4 with h | h
  · interval_cases k <;> omega
  · have := Nat.pow_le_pow_right (n := 2) (by decide) h
    omega
theorem thirteen_is_no_power : ¬ ∃ k, 13 = 2 ^ k := by
  rintro ⟨k, hk⟩
  rcases Nat.lt_or_ge k 4 with h | h
  · interval_cases k <;> omega
  · have := Nat.pow_le_pow_right (n := 2) (by decide) h
    omega
theorem witness_diag_data :
    (oneByte 0x4E 0x04).Holds ∧ (oneByte 0x4E 0x04).syndrome = 12 ∧ (oneByte 0x4E 0x04).even = false ∧
      (¬ ∃ k, 12 = 2 ^ k) ∧ 12 < (oneByte 0x4E 0x04).total :=
  ⟨oneByte_holds (by decide) (by decide) (by decide), by decide +kernel, by decide +kernel, twelve_is_no_power,
    by decide +kernel⟩
theorem witness_diag_out_of_range :
    (oneByte 0x4D 0x04).Holds ∧ (oneByte 0x4D 0x04).syndrome = 13 ∧ (oneByte 0x4D 0x04).even = false ∧
      (¬ ∃ k, 13 = 2 ^ k) ∧ (oneByte 0x4D 0x04).total ≤ 13 :=
  ⟨oneByte_holds (by decide) (by decide) (by decide), by decide +kernel, by decide +kernel, thirteen_is_no_power,
    by decide +kernel⟩

/-- The last response of a step that goes on. -/
def lastResponse : Host.Outcome State Fault Refusal → Option Response
  | .next t => t.responses.getLast?
  | _ => none

/-- SecondDiagConfirmsTheFirst: a corrected, an uncorrected and a faulting first DIAG, each of a held codeword (see
`witness_diag_data`, `witness_diag_double`, `witness_diag_out_of_range`), each with one response from reset's none. -/
theorem witness_SecondDiagConfirmsTheFirst :
    ((lastResponse (exec .diag (oneByte 0x4E 0x04))).map fun r => (r.fault, r.rpt.getLsbD 12)) = some (0, true) ∧
    ((lastResponse (exec .diag (oneByte 0x2E 0x14))).map fun r => (r.fault, r.rpt.getLsbD 12)) = some (0, false) ∧
    ((lastResponse (exec .diag (oneByte 0x4D 0x04))).map fun r => r.fault) = some 3 := by decide +kernel
theorem witness_EmptyBlockRaisesEmptyObject : State.reset.dbc = 0 := rfl
/-- FaultingCommandChangesNothing, FaultLeavesNoTrace, EachCommandRaisesOnlyItsFaults, CommandsDependOnTheBlockAlone: a
command that faults, and one after it that goes on. -/
theorem witness_faulting_command :
    exec .diag State.reset =
        .next (State.reset.addResponse ⟨2, 0, 0, List.replicate Config.reference.maxDataBytes 0⟩) ∧
      (State.reset.addResponse ⟨2, 0, 0, List.replicate Config.reference.maxDataBytes 0⟩).responses =
        State.reset.responses ++ [⟨2, 0, 0, List.replicate Config.reference.maxDataBytes 0⟩] ∧
      (2 : BitVec 3) ≠ 0 ∧ ∃ u, exec (.encode 1) State.reset = .next u :=
  ⟨rfl, rfl, by decide, execEncode_goes_on 1 _⟩
/-- DbcIsWrittenOnlyByEncodeAndReset: ENCODE of one byte on an Empty block, and RST on a held codeword. -/
theorem witness_DbcIsWrittenOnlyByEncodeAndReset :
    (oneByte 0x4E 0x14).dbc ≠ 0 ∧
    ((blockAfter (step (State.reset.withFetchWord 16 0x1001))).map Prod.snd) = some 8 ∧
    ((blockAfter (step { oneByte 0x4E 0x14 with pending := [.reset] })).map Prod.snd) = some 0 := by decide +kernel
/-- CodewordChangesOnlyByTheseActions: a FLIP, a correcting DIAG, an ENCODE and a reset that each change the codeword. -/
theorem witness_CodewordChangesOnlyByTheseActions :
    blockAfter (step ((oneByte 0x4E 0x14).withFetchWord 16 0x4006)) = some ([(0, 0x0E), (1, 0x14)], 8) ∧
    blockAfter (step ((oneByte 0x0E 0x14).withFetchWord 16 0x2000)) = some ([(0, 0x4E), (1, 0x14)], 8) ∧
    blockAfter (step ((oneByte 0x0E 0x14).withFetchWord 16 0x1001)) = some ([], 8) ∧
    blockAfter (step { oneByte 0x4E 0x14 with pending := [.reset] }) = some ([], 0) := by decide +kernel

end Sys2Proof.Tests
end

section
/-! PROOFS. The scope rules: the derived parameters of a build bound every length (R8), and what changes the codeword
(R6). -/

namespace Sys2Proof.Machine

/-! ## The size functions are non-decreasing (R110 to R112) -/

theorem parityCount_mono : Monotone parityCount := by
  intro a b hab
  unfold parityCount
  by_cases ha : a = 0
  · rw [if_pos ha]; exact Nat.zero_le _
  · have hlog : a.log2 ≤ b.log2 := by
      simpa only [Nat.log2_eq_log_two] using Nat.log_mono_right hab
    rw [if_neg ha, if_neg (by omega : b ≠ 0)]
    exact Nat.add_le_add_right hlog 2

theorem totalCount_mono : Monotone totalCount :=
  fun _ _ hab => Nat.add_le_add hab (parityCount_mono hab)

theorem byteLength_mono : Monotone byteLength :=
  fun _ _ hab => Nat.div_le_div_right (Nat.add_le_add_right (totalCount_mono hab) 7)

/-- The bytes of a codeword hold all its bits (R112). -/
theorem totalCount_le_byteLength (d : Nat) : totalCount d ≤ 8 * byteLength d := by
  unfold byteLength; omega

/-! ## Every length the build accepts is bounded by the derived parameters (R8) -/

theorem dataBits_le_maxDbc {c : Config} {len : Nat} (h : len ≤ c.maxDataBytes) : 8 * len ≤ maxDbc c :=
  Nat.mul_le_mul_left 8 h

theorem maxTotal_le_cwBits (c : Config) : maxTotal c ≤ cwBits c := totalCount_le_byteLength (maxDbc c)

theorem totalCount_le_maxTotal {c : Config} {len : Nat} (h : len ≤ c.maxDataBytes) :
    totalCount (8 * len) ≤ maxTotal c := totalCount_mono (dataBits_le_maxDbc h)

theorem parityCount_le_maxParity {c : Config} {len : Nat} (h : len ≤ c.maxDataBytes) :
    parityCount (8 * len) ≤ maxParity c := parityCount_mono (dataBits_le_maxDbc h)

/-- Settles O26: BL is monotone since floor_log2 is, and T(D) bits fit BL(D) bytes. -/
theorem bufferHoldsEveryAdmittedCodeword : Obligations.BufferHoldsEveryAdmittedCodeword :=
  ⟨fun _ _ hab => byteLength_mono hab, fun c _ hlen =>
    ⟨byteLength_mono (dataBits_le_maxDbc hlen), (totalCount_le_maxTotal hlen).trans (maxTotal_le_cwBits c)⟩⟩

/-- Settles O60: MAX_T and MAX_P are T and P at MAX_DBC, and T and P are monotone. -/
theorem largestCountsBoundEveryLength : Obligations.LargestCountsBoundEveryLength :=
  fun c => ⟨fun _ hlen => ⟨totalCount_le_maxTotal hlen, parityCount_le_maxParity hlen⟩, rfl, rfl, maxTotal_le_cwBits c⟩

/-! ## What each command does to the codeword (R6) -/

/-- The syndrome and the overall parity depend on CW and DBC alone, not on the transaction being presented. -/
@[simp] theorem State.present_syndrome (s : State) (d : List Byte) (p : List HostAction) :
    (s.present d p).syndrome = s.syndrome := rfl

@[simp] theorem State.present_even (s : State) (d : List Byte) (p : List HostAction) :
    (s.present d p).even = s.even := rfl

/-- The correcting statuses are those of an odd overall parity (R144). -/
theorem classify_correcting {syn : Nat} {even : Bool} (hmulti : classify syn even ≠ .multiBitError)
    (hnone : classify syn even ≠ .noError) : even = false := by
  cases even with
  | false => rfl
  | true => by_cases hsyn : syn = 0 <;> simp [classify, hsyn] at hmulti hnone

theorem execEncode_admitted_of_cw_ne {len : Nat} {s t : State} (h : execEncode len s = .next t)
    (hne : t.cw ≠ s.cw) : Admitted s.config len := by
  obtain ⟨-, rfl⟩ | ⟨hlen, -⟩ := execEncode_next h
  · exact absurd rfl hne
  · exact hlen

theorem execFlip_of_cw_ne {index : Nat} {s t : State} (h : execFlip index s = .next t) (hne : t.cw ≠ s.cw) :
    s.dbc ≠ 0 ∧ index < s.total ∧ t.cw = flipBit s.cw index := by
  obtain ⟨-, rfl⟩ | ⟨-, -, rfl⟩ | ⟨hdbc, hindex, -, rfl⟩ := execFlip_next h
  · exact absurd rfl hne
  · exact absurd rfl hne
  · exact ⟨hdbc, hindex, rfl⟩

theorem correct_of_cw_ne {st : Status} {syn : Nat} {s t : State} (h : correct st syn s = .next t)
    (hne : t.cw ≠ s.cw) :
    st ≠ .multiBitError ∧ st ≠ .noError ∧ syn < s.total ∧ t.cw = flipBit s.cw syn := by
  obtain ⟨-, rfl⟩ | ⟨-, rfl⟩ | ⟨-, -, -, rfl⟩ | ⟨hmulti, hnone, hsyn, rfl⟩ := correct_next h
  · exact absurd rfl hne
  · exact absurd rfl hne
  · exact absurd rfl hne
  · exact ⟨hmulti, hnone, hsyn, rfl⟩

theorem execDiag_of_cw_ne {s t : State} (h : execDiag s = .next t) (hne : t.cw ≠ s.cw) :
    s.dbc ≠ 0 ∧ s.even = false ∧ s.syndrome < s.total ∧ t.cw = flipBit s.cw s.syndrome := by
  obtain ⟨-, rfl⟩ | ⟨hdbc, -, h⟩ := execDiag_next h
  · exact absurd rfl hne
  · obtain ⟨hmulti, hnone, hsyn, hcw⟩ := correct_of_cw_ne h hne
    exact ⟨hdbc, classify_correcting hmulti hnone, hsyn, hcw⟩

theorem execDecode_cw {s t : State} (h : execDecode s = .next t) : t.cw = s.cw := by
  obtain ⟨-, rfl⟩ | ⟨-, -, rfl⟩ := execDecode_next h <;> rfl

/-- All that a command that changes the codeword can be. -/
theorem exec_of_cw_ne {i : Instr} {s t : State} (h : exec i s = .next t) (hne : t.cw ≠ s.cw) :
    (∃ len, i = .encode len ∧ Admitted s.config len) ∨
    (∃ index, i = .flip index ∧ s.dbc ≠ 0 ∧ index < s.total ∧ t.cw = flipBit s.cw index) ∨
    (i = .diag ∧ s.dbc ≠ 0 ∧ s.even = false ∧ s.syndrome < s.total ∧ t.cw = flipBit s.cw s.syndrome) := by
  cases i with
  | encode len => exact .inl ⟨len, rfl, execEncode_admitted_of_cw_ne h hne⟩
  | diag => exact .inr (.inr ⟨rfl, execDiag_of_cw_ne h hne⟩)
  | decode => exact absurd (execDecode_cw h) hne
  | flip index => exact .inr (.inl ⟨index, rfl, execFlip_of_cw_ne h hne⟩)

/-- Settles O59: of the five things a step can do, idling and an illegal word keep the codeword; a reset is the first
case of the statement, and a command is one of the three of `exec_of_cw_ne`. -/
theorem codewordChangesOnlyByTheseActions : Obligations.CodewordChangesOnlyByTheseActions := by
  intro s t h hne
  obtain ⟨-, rfl⟩ | ⟨w, d, rest, i, hp, hw, h⟩ | ⟨w, d, rest, e, -, -, rfl⟩ | ⟨rest, hp, -⟩ | ⟨w, d, rest, hp, -⟩ :=
    step_next h
  · exact absurd rfl hne
  · exact .inr ⟨w, d, rest, i, hp, hw, by simpa using exec_of_cw_ne h hne⟩
  · exact absurd rfl hne
  · exact .inl ⟨rest, .inl hp⟩
  · exact .inl ⟨rest, .inr ⟨w, d, hp⟩⟩

end Sys2Proof.Machine
end

section
/-! PROOFS. The index map: which indices are reserved (R42, R92), how many data indices lie below a bound, and what
being well-sized means for the largest index of a codeword (R114). -/

namespace Sys2Proof.Machine

/-- R92: the bit test finds 0 and the powers of two. -/
theorem isPowerOfTwo_iff {n : Nat} : isPowerOfTwo n = true ↔ n = 0 ∨ ∃ k, n = 2 ^ k := by
  by_cases hn : n = 0
  · simp [isPowerOfTwo, hn]
  · have hbits : n &&& (n - 1) = 0 ↔ ∃ k, n = 2 ^ k := Nat.and_sub_one_eq_zero_iff_isPowerOfTwo hn
    simp [isPowerOfTwo, hn, hbits]

theorem isPowerOfTwo_two_pow (k : Nat) : isPowerOfTwo (2 ^ k) = true := isPowerOfTwo_iff.mpr (.inr ⟨k, rfl⟩)

/-- `floor_log2` grows exactly at the reserved indices. -/
theorem log2_succ {n : Nat} (hn : n ≠ 0) : (n + 1).log2 = n.log2 + (isPowerOfTwo (n + 1)).toNat := by
  obtain ⟨hlo, hhi⟩ := (Nat.log2_eq_iff hn).mp rfl
  cases hp : isPowerOfTwo (n + 1) with
  | true =>
    obtain h | ⟨k, hk⟩ := isPowerOfTwo_iff.mp hp
    · omega
    · have hlog : n.log2 + 1 = k := by
        refine Nat.le_antisymm ?_ ?_
        · exact (Nat.pow_lt_pow_iff_right (a := 2) (by decide)).mp (by omega)
        · exact (Nat.pow_le_pow_iff_right (a := 2) (by decide)).mp (by omega)
      rw [hk, Nat.log2_two_pow, Bool.toNat_true, hlog]
  | false =>
    have hne : n + 1 ≠ 2 ^ (n.log2 + 1) := fun h => by
      rw [h, isPowerOfTwo_two_pow] at hp
      exact Bool.noConfusion hp
    exact (Nat.log2_eq_iff (by omega)).mpr ⟨by simp; omega, by simp; omega⟩

theorem length_dataIndicesBelow_succ (t : Nat) :
    (dataIndicesBelow (t + 1)).length = (dataIndicesBelow t).length + (isDataIndex t).toNat := by
  cases h : isDataIndex t <;> simp [dataIndicesBelow, List.range_succ, h]

/-- Of the indices 0 to `t`, all but 0 and the `floor_log2(t) + 1` powers of two are data indices (R42). -/
theorem length_dataIndicesBelow {t : Nat} (ht : 1 ≤ t) : (dataIndicesBelow (t + 1)).length + t.log2 + 1 = t := by
  induction t, ht using Nat.le_induction with
  | base => decide +kernel
  | succ n hn ih =>
    rw [length_dataIndicesBelow_succ, log2_succ (by omega), isDataIndex]
    cases isPowerOfTwo (n + 1) <;> simp <;> omega

theorem parityCount_of_pos {d : Nat} (hd : 1 ≤ d) : parityCount d = d.log2 + 2 := if_neg (by omega)

theorem totalCount_of_pos {d : Nat} (hd : 1 ≤ d) : totalCount d = d + d.log2 + 2 := by
  rw [totalCount, parityCount_of_pos hd, Nat.add_assoc]

theorem totalCount_pos {d : Nat} (hd : 1 ≤ d) : 0 < totalCount d := Nat.lt_of_lt_of_le hd (Nat.le_add_right _ _)

theorem length_dataIndicesBelow_of_wellSized {d : Nat} (h : wellSized d = true) :
    (dataIndicesBelow (totalCount d)).length = d := by
  simp only [wellSized, Bool.and_eq_true, beq_iff_eq] at h
  exact h.2

/-- R114: `D` is well-sized when the largest index of its codeword lies below the next power of two. -/
theorem wellSized_iff_log2 {d : Nat} (hd : 1 ≤ d) : wellSized d = true ↔ (totalCount d - 1).log2 = d.log2 := by
  have hcount : (dataIndicesBelow (d + d.log2 + 2)).length + (d + d.log2 + 1).log2 + 1 = d + d.log2 + 1 :=
    length_dataIndicesBelow (by omega)
  simp only [wellSized, hd, decide_true, Bool.true_and, beq_iff_eq, totalCount_of_pos hd,
    show d + d.log2 + 2 - 1 = d + d.log2 + 1 by omega]
  omega

/-- R97: every parity index of a codeword lies below its total bit count. -/
theorem two_pow_lt_totalCount {d k : Nat} (hk : k + 2 ≤ parityCount d) : 2 ^ k < totalCount d := by
  have hd : 1 ≤ d := by
    by_contra h
    simp [parityCount, show d = 0 by omega] at hk
  rw [parityCount_of_pos hd] at hk
  calc 2 ^ k ≤ 2 ^ d.log2 := Nat.pow_le_pow_right (by decide) (by omega)
    _ ≤ d := Nat.log2_self_le (by omega)
    _ < totalCount d := by rw [totalCount_of_pos hd]; omega

/-- R25 item 3: a power of two below T is one of the parity indices when `D` is well-sized. -/
theorem two_pow_lt_totalCount_iff {d k : Nat} (hd : 1 ≤ d) (h : wellSized d = true) :
    2 ^ k < totalCount d ↔ k + 2 ≤ parityCount d := by
  refine ⟨fun hk => ?_, two_pow_lt_totalCount⟩
  have hlog : k ≤ (totalCount d - 1).log2 :=
    (Nat.le_log2 (by have := Nat.two_pow_pos k; omega)).mpr (by omega)
  rw [(wellSized_iff_log2 hd).mp h] at hlog
  rw [parityCount_of_pos hd]
  omega

end Sys2Proof.Machine
end

section
/-! PROOFS. Where ENCODE writes: each step of R130 sets valid indices only, so the codeword it builds is zero from T
up. -/

namespace Sys2Proof.Machine

theorem cwGet_placeAt_of_ne (d : List Byte) {w : Placement} (hw : w.buf.wf = true) {i j : Nat} (hj : j ≠ i) :
    cwGet (placeAt d w i).buf j = cwGet w.buf j := by
  unfold placeAt
  split
  · rfl
  · split
    · exact (cwGet_cwSet hw _ _ _).trans (if_neg hj)
    · rfl

theorem cwGet_placeAt_foldl_of_notMem (d : List Byte) {is : List Nat} {w : Placement} (hw : w.buf.wf = true)
    {j : Nat} (hj : j ∉ is) : cwGet (is.foldl (placeAt d) w).buf j = cwGet w.buf j := by
  induction is generalizing w with
  | nil => rfl
  | cons i is ih =>
    obtain ⟨hi, his⟩ := not_or.mp (mt List.mem_cons.mpr hj)
    exact (ih (placeAt_wf d hw i) his).trans (cwGet_placeAt_of_ne d hw hi)

theorem placeData_wf (d : List Byte) (p t : Nat) : (placeData d p t).buf.wf = true :=
  placeAt_foldl_wf d (List.range t) (w := ⟨[], List.replicate p 0, 0⟩) rfl

theorem cwGet_placeData_of_le (d : List Byte) (p : Nat) {t j : Nat} (hj : t ≤ j) :
    cwGet (placeData d p t).buf j = false :=
  (cwGet_placeAt_foldl_of_notMem d (w := ⟨[], List.replicate p 0, 0⟩) rfl
    (fun h => Nat.not_lt.mpr hj (List.mem_range.mp h))).trans (cwGet_nil j)

theorem placeParityAt_wf (acc : List Nat) {m : Memory} (hm : m.wf = true) (k : Nat) :
    (placeParityAt acc m k).wf = true := placeParityAt_foldl_wf acc [k] hm

theorem cwGet_placeParityAt_of_ne (acc : List Nat) {m : Memory} (hm : m.wf = true) {j k : Nat} (hj : j ≠ 2 ^ k) :
    cwGet (placeParityAt acc m k) j = cwGet m j := by
  unfold placeParityAt
  split
  · exact (cwGet_cwSet hm _ _ _).trans (if_neg hj)
  · rfl

theorem cwGet_placeParityAt_foldl_of_ne (acc : List Nat) {ks : List Nat} {m : Memory} (hm : m.wf = true) {j : Nat}
    (hj : ∀ k ∈ ks, j ≠ 2 ^ k) : cwGet (ks.foldl (placeParityAt acc) m) j = cwGet m j := by
  induction ks generalizing m with
  | nil => rfl
  | cons k ks ih =>
    obtain ⟨hk, hks⟩ := List.forall_mem_cons.mp hj
    exact (ih (placeParityAt_wf acc hm k) hks).trans (cwGet_placeParityAt_of_ne acc hm hk)

theorem placeParity_wf (p : Nat) {w : Placement} (hw : w.buf.wf = true) : (placeParity p w).wf = true :=
  placeParityAt_foldl_wf w.acc (List.range (p - 1)) hw

/-- Step 4 writes the parity indices `2^0` to `2^(P-2)` only. -/
theorem cwGet_placeParity_of_ne {p : Nat} {w : Placement} (hw : w.buf.wf = true) {j : Nat}
    (hj : ∀ k, k + 2 ≤ p → j ≠ 2 ^ k) : cwGet (placeParity p w) j = cwGet w.buf j :=
  cwGet_placeParityAt_foldl_of_ne w.acc hw (fun k hk => hj k (by have := List.mem_range.mp hk; omega))

/-- Step 5 writes the master bit only. -/
theorem cwGet_placeMaster_of_ne (t : Nat) {m : Memory} (hm : m.wf = true) {j : Nat} (hj : j ≠ 0) :
    cwGet (placeMaster t m) j = cwGet m j := by
  unfold placeMaster
  split
  · exact (cwGet_cwSet hm _ _ _).trans (if_neg hj)
  · rfl

/-- R130: the new codeword is zero from T up. -/
theorem cwGet_buildCodeword_of_le (d : List Byte) {dbits j : Nat} (hd : 1 ≤ dbits) (hj : totalCount dbits ≤ j) :
    cwGet (buildCodeword d dbits) j = false := by
  have hwf := placeData_wf d (parityCount dbits) (totalCount dbits)
  have hparity : ∀ k, k + 2 ≤ parityCount dbits → j ≠ 2 ^ k := fun k hk =>
    (Nat.lt_of_lt_of_le (two_pow_lt_totalCount hk) hj).ne'
  have hmaster : j ≠ 0 := (Nat.lt_of_lt_of_le (totalCount_pos hd) hj).ne'
  rw [buildCodeword, cwGet_placeMaster_of_ne _ (placeParity_wf _ hwf) hmaster, cwGet_placeParity_of_ne hwf hparity,
    cwGet_placeData_of_le _ _ hj]

end Sys2Proof.Machine
end

section
/-! PROOFS. The state (R20 to R33): what a step can do to CW and DBC, the invariant of reachable states, and that no
command reads the interface. -/

namespace Sys2Proof.Machine

/-! ## What a command can do to the block (R6, R22) -/

/-- The block after an ENCODE of `len` bytes (R130). -/
structure CommitsEncoding (s t : State) (len : Nat) : Prop where
  admitted : Admitted s.config len
  config : t.config = s.config
  cw : t.cw = buildCodeword s.din (8 * len)
  dbc : t.dbc = BitVec.ofNat 12 (8 * len)

/-- The block after one valid bit was toggled (R95). -/
structure TogglesBit (s t : State) (i : Nat) : Prop where
  valid : i < s.total
  config : t.config = s.config
  cw : t.cw = flipBit s.cw i
  dbc : t.dbc = s.dbc

theorem execEncode_block {len : Nat} {s t : State} (h : execEncode len s = .next t) :
    sameBlock s t ∨ CommitsEncoding s t len := by
  obtain ⟨-, rfl⟩ | ⟨hlen, rfl⟩ := execEncode_next h
  · exact .inl ⟨rfl, rfl, rfl⟩
  · exact .inr ⟨hlen, rfl, rfl, rfl⟩

theorem execFlip_block {index : Nat} {s t : State} (h : execFlip index s = .next t) :
    sameBlock s t ∨ TogglesBit s t index := by
  obtain ⟨-, rfl⟩ | ⟨-, -, rfl⟩ | ⟨-, hindex, -, rfl⟩ := execFlip_next h
  · exact .inl ⟨rfl, rfl, rfl⟩
  · exact .inl ⟨rfl, rfl, rfl⟩
  · exact .inr ⟨hindex, rfl, rfl, rfl⟩

theorem correct_block {st : Status} {syn : Nat} {s t : State} (h : correct st syn s = .next t) :
    sameBlock s t ∨ TogglesBit s t syn := by
  obtain ⟨-, rfl⟩ | ⟨-, rfl⟩ | ⟨-, -, -, rfl⟩ | ⟨-, -, hsyn, rfl⟩ := correct_next h
  · exact .inl ⟨rfl, rfl, rfl⟩
  · exact .inl ⟨rfl, rfl, rfl⟩
  · exact .inl ⟨rfl, rfl, rfl⟩
  · exact .inr ⟨hsyn, rfl, rfl, rfl⟩

theorem execDiag_block {s t : State} (h : execDiag s = .next t) : sameBlock s t ∨ TogglesBit s t s.syndrome := by
  obtain ⟨-, rfl⟩ | ⟨-, -, h⟩ := execDiag_next h
  · exact .inl ⟨rfl, rfl, rfl⟩
  · exact correct_block h

theorem execDecode_block {s t : State} (h : execDecode s = .next t) : sameBlock s t := by
  obtain ⟨-, rfl⟩ | ⟨-, -, rfl⟩ := execDecode_next h <;> exact ⟨rfl, rfl, rfl⟩

/-- All that a command can do to the block. -/
theorem exec_block {i : Instr} {s t : State} (h : exec i s = .next t) :
    sameBlock s t ∨ (∃ index, TogglesBit s t index) ∨ ∃ len, i = .encode len ∧ CommitsEncoding s t len := by
  cases i with
  | encode len => exact (execEncode_block h).imp_right fun hc => .inr ⟨len, rfl, hc⟩
  | diag => exact (execDiag_block h).imp_right fun ht => .inl ⟨_, ht⟩
  | decode => exact .inl (execDecode_block h)
  | flip index => exact (execFlip_block h).imp_right fun ht => .inl ⟨index, ht⟩

/-- All that a step can do to the block: nothing, toggle a valid bit, commit the encoding of the DIN lanes presented,
or empty it by one of the two resets. -/
theorem step_block {s t : State} (h : step s = .next t) :
    sameBlock s t ∨ (∃ index, TogglesBit s t index) ∨
    (∃ w d rest len, s.pending = .command w d :: rest ∧ decode w = .ok (.encode len) ∧
      CommitsEncoding (s.present d rest) t len) ∨
    ((t.config = s.config ∧ t.cw = [] ∧ t.dbc = 0) ∧
      ∃ rest, s.pending = .reset :: rest ∨ ∃ w d, s.pending = .resetDuring w d :: rest) := by
  obtain ⟨-, rfl⟩ | ⟨w, d, rest, i, hp, hw, h⟩ | ⟨w, d, rest, e, -, -, rfl⟩ | ⟨rest, hp, rfl⟩ | ⟨w, d, rest, hp, rfl⟩ :=
    step_next h
  · exact .inl ⟨rfl, rfl, rfl⟩
  · obtain hsame | ⟨index, ⟨hvalid, hconfig, hcw, hdbc⟩⟩ | ⟨len, rfl, hcommit⟩ := exec_block h
    · exact .inl hsame
    · exact .inr (.inl ⟨index, hvalid, hconfig, hcw, hdbc⟩)
    · exact .inr (.inr (.inl ⟨w, d, rest, len, hp, hw, hcommit⟩))
  · exact .inl ⟨rfl, rfl, rfl⟩
  · exact .inr (.inr (.inr ⟨⟨rfl, rfl, rfl⟩, rest, .inl hp⟩))
  · exact .inr (.inr (.inr ⟨⟨rfl, rfl, rfl⟩, rest, .inr ⟨w, d, hp⟩⟩))

/-! ## The invariant (R25) -/

/-- In an admissible build the bit count of the longest ENCODE fits the 12 bits of DBC (R22). -/
theorem CommitsEncoding.dbc_toNat {s t : State} {len : Nat} (h : CommitsEncoding s t len)
    (hc : s.config.Admissible) : t.dbc.toNat = 8 * len := by
  have hmax := hc.2
  have hlen := h.admitted.2.1
  rw [h.dbc, BitVec.toNat_ofNat, Nat.mod_eq_of_lt (by omega)]

theorem State.Inv.of_sameBlock {s t : State} (h : s.Inv) (hst : sameBlock s t) : t.Inv := by
  obtain ⟨hconfig, hcw, hdbc⟩ := hst
  have htotal : t.total = s.total := by rw [State.total, State.total, hdbc]
  exact ⟨hconfig ▸ h.config, hcw ▸ h.canonical, by rw [hconfig, hdbc]; exact h.dbc,
    fun i hi => by rw [hcw]; exact h.padding i (htotal ▸ hi)⟩

/-- A toggled bit lies below T, so the padding stays zero. -/
theorem State.Inv.of_togglesBit {s t : State} {index : Nat} (h : s.Inv) (hst : TogglesBit s t index) : t.Inv := by
  obtain ⟨hvalid, hconfig, hcw, hdbc⟩ := hst
  have htotal : t.total = s.total := by rw [State.total, State.total, hdbc]
  refine ⟨hconfig ▸ h.config, hcw ▸ flipBit_wf h.canonical index, by rw [hconfig, hdbc]; exact h.dbc,
    fun i hi => ?_⟩
  rw [htotal] at hi
  rw [hcw, cwGet_flipBit h.canonical, if_neg (Nat.lt_of_lt_of_le hvalid hi).ne']
  exact h.padding i hi

/-- ENCODE establishes the invariant whatever the block held before: it needs the range of the parameter only. -/
theorem CommitsEncoding.inv {s t : State} {len : Nat} (h : CommitsEncoding s t len) (hc : s.config.Admissible) :
    t.Inv where
  config := h.config ▸ hc
  canonical := h.cw ▸ buildCodeword_wf s.din (8 * len)
  dbc := .inr ⟨len, h.config ▸ h.admitted, h.dbc_toNat hc⟩
  padding := fun i hi => by
    have hlen := h.admitted.1
    rw [State.total, h.dbc_toNat hc] at hi
    rw [h.cw, cwGet_buildCodeword_of_le s.din (by omega) hi]

theorem inv_of_empty {t : State} (hc : t.config.Admissible) (hcw : t.cw = []) (hdbc : t.dbc = 0) : t.Inv where
  config := hc
  canonical := hcw ▸ rfl
  dbc := .inl hdbc
  padding := fun i _ => by rw [hcw, cwGet_nil]

/-- Settles O14: of what a step can do to the block, a toggled bit is a valid one, a new codeword is zero from T up by
`cwGet_buildCodeword_of_le`, and a reset gives the empty buffer. -/
theorem everyStepKeepsTheInvariant : Obligations.EveryStepKeepsTheInvariant := by
  intro s t hinv h
  obtain hsame | ⟨index, htoggle⟩ | ⟨w, d, rest, len, -, -, hcommit⟩ | ⟨⟨hconfig, hcw, hdbc⟩, -⟩ := step_block h
  · exact hinv.of_sameBlock hsame
  · exact hinv.of_togglesBit htoggle
  · exact hcommit.inv hinv.config
  · exact inv_of_empty (hconfig ▸ hinv.config) hcw hdbc

/-- Settles O13: the reset state is empty. -/
theorem resetHasTheInvariant : Obligations.ResetHasTheInvariant := fun _ hc => inv_of_empty hc rfl rfl

/-- Settles O12: the reset buffer lists no byte, so each of its bytes is the reset value, and P, T and BL of 0 are 0 by
the convention of R24. -/
theorem resetStateIsEmptyAndZero : Obligations.ResetStateIsEmptyAndZero := by
  intro c
  have hparity : parityCount 0 = 0 := if_pos rfl
  have htotal : totalCount 0 = 0 := by rw [totalCount, hparity]
  exact ⟨rfl, rfl, fun _ _ => rfl, rfl, hparity, htotal, by rw [byteLength, htotal]⟩

/-! ## What the invariant says of DBC (R22, R25 item 3) -/

/-- A held codeword has a well-sized data-bit count. -/
theorem State.Holds.wellSized_dbc {s : State} (h : s.Holds) : 1 ≤ s.dbc.toNat ∧ wellSized s.dbc.toNat = true := by
  obtain hzero | ⟨len, ⟨hpos, -, hwell⟩, hdbc⟩ := h.inv.dbc
  · exact absurd hzero h.nonempty
  · rw [hdbc]
    exact ⟨by omega, hwell⟩

/-- Settles O28: the reserved indices are 0 and the powers of two, and the powers below T are the parity indices since
DBC is well-sized. -/
theorem reservedIndicesOfAHeldCodeword : Obligations.ReservedIndicesOfAHeldCodeword := by
  intro s hs
  obtain ⟨hpos, hwell⟩ := hs.wellSized_dbc
  have hpow : ∀ k, 2 ^ k < s.total ↔ k + 2 ≤ s.parity := fun k => two_pow_lt_totalCount_iff hpos hwell
  refine ⟨fun i hi => ?_, fun k => (hpow k).mpr, length_dataIndicesBelow_of_wellSized hwell⟩
  rw [isPowerOfTwo_iff]
  refine or_congr_right ⟨?_, ?_⟩
  · rintro ⟨k, rfl⟩
    exact ⟨k, (hpow k).mp hi, rfl⟩
  · rintro ⟨k, -, rfl⟩
    exact ⟨k, rfl⟩

/-- Settles O58: of what a step can do to the block, only a committed encoding and a reset write DBC. -/
theorem dbcIsWrittenOnlyByEncodeAndReset : Obligations.DbcIsWrittenOnlyByEncodeAndReset := by
  intro s t hinv h hne
  obtain ⟨-, -, hdbc⟩ | ⟨index, htoggle⟩ | ⟨w, d, rest, len, hp, hw, hcommit⟩ | ⟨⟨-, -, hdbc⟩, hp⟩ := step_block h
  · exact absurd hdbc hne
  · exact absurd htoggle.dbc hne
  · exact .inr ⟨w, d, rest, len, hp, hw, hcommit.admitted, hcommit.dbc_toNat hinv.config⟩
  · exact .inl ⟨hdbc, hp⟩

/-! ## No command reads the interface (R28, R31) -/

/-- `s` with other responses given, other host actions to come and another count of free values. -/
def State.withInterface (s : State) (rs : List Response) (ps : List HostAction) (n : Nat) : State :=
  { s with responses := rs, pending := ps, cuts := n }

/-- What `f` does to the block and what it answers is the same under every interface. -/
def IgnoresInterface (f : State → Host.Outcome State Fault Refusal) : Prop :=
  ∀ (s t : State) (rs : List Response) (ps : List HostAction) (n : Nat), f s = .next t →
    ∃ r, t.responses = s.responses ++ [r] ∧ f (s.withInterface rs ps n) = .next (t.withInterface (rs ++ [r]) ps n)

/-- `x` is a function of the block and DIN alone. -/
def ReadsBlockAlone {α : Type} (x : State → α) : Prop :=
  ∀ (s : State) (rs : List Response) (ps : List HostAction) (n : Nat), x (s.withInterface rs ps n) = x s

/-- A response computed from the block and DIN, given after writes computed from them. -/
theorem IgnoresInterface.writeAndRespond {r : State → Response} {cw : State → Memory} {dbc : State → BitVec 12}
    (hr : ReadsBlockAlone r := by intros _ _ _ _; rfl) (hcw : ReadsBlockAlone cw := by intros _ _ _ _; rfl)
    (hdbc : ReadsBlockAlone dbc := by intros _ _ _ _; rfl) :
    IgnoresInterface fun s => respond (r s) ((s.setCw (cw s)).setDbc (dbc s)) := by
  intro s t rs ps n h
  obtain rfl := respond_next h
  refine ⟨r s, rfl, ?_⟩
  simp only [hr s rs ps n, hcw s rs ps n, hdbc s rs ps n]
  rfl

/-- A response with nothing written. -/
theorem IgnoresInterface.respond {r : State → Response} (hr : ReadsBlockAlone r := by intros _ _ _ _; rfl) :
    IgnoresInterface fun s => Machine.respond (r s) s :=
  .writeAndRespond (cw := State.cw) (dbc := State.dbc) hr

theorem IgnoresInterface.raise (k : FaultKind) : IgnoresInterface (Machine.raise k) :=
  .respond (r := fun s => faultResponse s.config k)

theorem IgnoresInterface.ite {c : State → Prop} [DecidablePred c] {f g : State → Host.Outcome State Fault Refusal}
    (hf : IgnoresInterface f) (hg : IgnoresInterface g) (hc : ReadsBlockAlone c := by intros _ _ _ _; rfl) :
    IgnoresInterface fun s => if c s then f s else g s := by
  intro s t rs ps n h
  simp only [hc s rs ps n]
  by_cases hs : c s
  · simp only [hs, if_true] at h ⊢
    exact hf s t rs ps n h
  · simp only [hs, if_false] at h ⊢
    exact hg s t rs ps n h

theorem IgnoresInterface.needCodeword {body : State → Host.Outcome State Fault Refusal}
    (hbody : IgnoresInterface body) : IgnoresInterface fun s => Machine.needCodeword s (body s) :=
  have hstop : IgnoresInterface fun _ => .fault .outsideBuffer := fun _ _ _ _ _ h => nomatch h
  .ite (c := fun s => s.dbc = 0) (.raise .emptyObject) (.ite (c := fun s => cwBits s.config < s.total) hstop hbody)

theorem IgnoresInterface.toggleInRange (index : Nat) {r : State → Response}
    (hr : ReadsBlockAlone r := by intros _ _ _ _; rfl) :
    IgnoresInterface fun s =>
      if s.total ≤ index then Machine.raise .indexOutOfRange s
      else Machine.respond (r s) (s.setCw (flipBit s.cw index)) :=
  .ite (c := fun s => s.total ≤ index) (.raise .indexOutOfRange)
    (.writeAndRespond (cw := fun s => flipBit s.cw index) (dbc := State.dbc) hr)

theorem execEncode_ignoresInterface (len : Nat) : IgnoresInterface (execEncode len) :=
  .ite (c := fun s => encodeRejects s.config len = true) (.raise .invalidInput)
    (.writeAndRespond (r := fun s => plainResponse s.config) (cw := fun s => buildCodeword s.din (8 * len))
      (dbc := fun _ => BitVec.ofNat 12 (8 * len)))

theorem execFlip_ignoresInterface (index : Nat) : IgnoresInterface (execFlip index) :=
  .needCodeword (.toggleInRange index (r := fun s => plainResponse s.config))

theorem correct_ignoresInterface (st : Status) (syn : Nat) : IgnoresInterface (correct st syn) := by
  cases st with
  | multiBitError => exact .respond (r := fun s => reportResponse s.config .multiBitError syn)
  | noError => exact .respond (r := fun s => reportResponse s.config .noError 0)
  | masterParityBitError => exact .toggleInRange syn (r := fun s => reportResponse s.config .masterParityBitError syn)
  | parityBitError => exact .toggleInRange syn (r := fun s => reportResponse s.config .parityBitError syn)
  | dataBitError => exact .toggleInRange syn (r := fun s => reportResponse s.config .dataBitError syn)

/-- The status and the syndrome that DIAG acts on are computed from the block. -/
theorem execDiag_ignoresInterface : IgnoresInterface execDiag :=
  .needCodeword fun s => correct_ignoresInterface s.status s.syndrome s

theorem execDecode_ignoresInterface : IgnoresInterface execDecode :=
  .needCodeword (.respond (r := fun s => dataResponse s.config (extractData s.cw s.dbc.toNat)))

theorem exec_ignoresInterface (i : Instr) : IgnoresInterface (exec i) := by
  cases i with
  | encode len => exact execEncode_ignoresInterface len
  | diag => exact execDiag_ignoresInterface
  | decode => exact execDecode_ignoresInterface
  | flip index => exact execFlip_ignoresInterface index

/-- Settles O57: every test and every write of the four commands is computed from the block and DIN. -/
theorem commandsDependOnTheBlockAlone : Obligations.CommandsDependOnTheBlockAlone :=
  fun s t i rs ps n h => exec_ignoresInterface i s t rs ps n h

end Sys2Proof.Machine
end

section
/-! PROOFS. Memory (R41 to R50): the host's next command, the index map between data indices and data bits (R43), and
what FLIP, DIAG and ENCODE leave unchanged (R47). -/

namespace Sys2Proof.Machine

/-! ## The command the host presents (R50) -/

/-- Settles O6: the step decodes the word and dispatches on the result. -/
theorem stepRunsThePresentedCommand : Obligations.StepRunsThePresentedCommand := by
  intro s w d rest i hp hw
  rw [step, hp]
  simp only [hw]
  rfl

/-! ## The data indices in ascending order (R42, R43) -/

/-- A data index is not 0, and it lies above its rank by the 0 and the `floor_log2 + 1` powers of two below it (R43). -/
theorem length_dataIndicesBelow_add_log2 {x : Nat} (hx : isDataIndex x = true) :
    (dataIndicesBelow x).length + x.log2 + 2 = x := by
  have hpos : 1 ≤ x := Nat.one_le_iff_ne_zero.mpr fun h => by subst h; exact Bool.noConfusion hx
  have hcount := length_dataIndicesBelow hpos
  rw [length_dataIndicesBelow_succ, hx, Bool.toNat_true] at hcount
  omega

theorem rank_eq_length_dataIndicesBelow {x : Nat} (hx : isDataIndex x = true) :
    rank x = (dataIndicesBelow x).length := by
  have h := length_dataIndicesBelow_add_log2 hx
  rw [rank]
  omega

/-- A data index stands after the data indices below it. -/
theorem getElem?_dataIndicesBelow_length {t x : Nat} (hlt : x < t) (hx : isDataIndex x = true) :
    (dataIndicesBelow t)[(dataIndicesBelow x).length]? = some x := by
  obtain ⟨k, rfl⟩ := Nat.exists_eq_add_of_le (Nat.succ_le_of_lt hlt)
  have hsplit : dataIndicesBelow (x + 1 + k) =
      dataIndicesBelow x ++ x :: ((List.range k).map (x + 1 + ·)).filter isDataIndex := by
    simp [dataIndicesBelow, List.range_add, List.range_succ, hx]
  rw [hsplit, List.getElem?_append_right (Nat.le_refl _), Nat.sub_self, List.getElem?_cons_zero]

/-- The `n`-th data index is the one with `n` data indices below it. -/
theorem getElem?_dataIndicesBelow {t n x : Nat} :
    (dataIndicesBelow t)[n]? = some x ↔ x < t ∧ isDataIndex x = true ∧ (dataIndicesBelow x).length = n := by
  constructor
  · intro h
    obtain ⟨hlt, hx⟩ := mem_dataIndicesBelow.mp (List.mem_of_getElem? h)
    obtain ⟨hn, -⟩ := List.getElem?_eq_some_iff.mp h
    have hsame := h.trans (getElem?_dataIndicesBelow_length hlt hx).symm
    exact ⟨hlt, hx, ((List.getElem?_inj hn (dataIndicesBelow_nodup t)).mp hsame).symm⟩
  · rintro ⟨hlt, hx, rfl⟩
    exact getElem?_dataIndicesBelow_length hlt hx

/-- More than `n` data indices lie below `2n + 4`, so `pos` finds the one it asks for. -/
theorem lt_length_dataIndicesBelow (n : Nat) : n < (dataIndicesBelow (2 * n + 4)).length := by
  have hcount : (dataIndicesBelow (2 * n + 4)).length + (2 * n + 3).log2 + 1 = 2 * n + 3 :=
    length_dataIndicesBelow (by omega)
  have hlog : (2 * n + 3).log2 < n + 2 := by
    have hpow : n + 1 < 2 ^ (n + 1) := Nat.lt_two_pow_self
    rw [Nat.log2_lt (by omega), pow_succ]
    omega
  omega

theorem pos_spec (n : Nat) : isDataIndex (pos n) = true ∧ (dataIndicesBelow (pos n)).length = n := by
  have hget : (dataIndicesBelow (2 * n + 4))[n]? = some (pos n) := by
    have hn := lt_length_dataIndicesBelow n
    rw [pos, List.getD_eq_getElem _ _ hn, List.getElem?_eq_getElem hn]
  exact (getElem?_dataIndicesBelow.mp hget).2

/-- `pos` inverts the count of the data indices below. -/
theorem pos_length_dataIndicesBelow {x : Nat} (hx : isDataIndex x = true) : pos (dataIndicesBelow x).length = x := by
  obtain ⟨hpos, hcount⟩ := pos_spec (dataIndicesBelow x).length
  have hget := getElem?_dataIndicesBelow_length (t := pos (dataIndicesBelow x).length + x + 1) (by omega) hpos
  rw [hcount, getElem?_dataIndicesBelow_length (by omega) hx] at hget
  exact (Option.some.inj hget).symm

/-- An index strictly between two neighbouring powers of two is a data index. -/
theorem isDataIndex_of_between {x m : Nat} (hlo : 2 ^ m < x) (hhi : x < 2 ^ (m + 1)) : isDataIndex x = true := by
  rw [isDataIndex, Bool.not_eq_true', Bool.eq_false_iff, Ne, isPowerOfTwo_iff]
  rintro (rfl | ⟨k, rfl⟩)
  · omega
  · have hmk := (Nat.pow_lt_pow_iff_right (a := 2) (by decide)).mp hlo
    have hkm := (Nat.pow_lt_pow_iff_right (a := 2) (by decide)).mp hhi
    omega

/-- R43: the closed form, `m` being `floor_log2` of the position. -/
theorem pos_eq_of_between {n m : Nat} (hlo : 2 ^ m ≤ n + m + 1) (hhi : n + m + 3 ≤ 2 ^ (m + 1)) :
    pos n = n + m + 2 ∧ m = (pos n).log2 := by
  have hx : isDataIndex (n + m + 2) = true := isDataIndex_of_between (m := m) (by omega) (by omega)
  have hlog : (n + m + 2).log2 = m := (Nat.log2_eq_iff (by omega)).mpr ⟨by omega, by omega⟩
  have hcount : (dataIndicesBelow (n + m + 2)).length = n := by
    have h := length_dataIndicesBelow_add_log2 hx
    omega
  have hpos : pos n = n + m + 2 := by simpa only [hcount] using pos_length_dataIndicesBelow hx
  exact ⟨hpos, by rw [hpos, hlog]⟩

/-- Settles O29: `pos n` is the entry `n` of the ascending list of data indices, which has `n` data indices below it;
the index of the closed form is another with `n` below it. -/
theorem posIsTheNthDataIndex : Obligations.PosIsTheNthDataIndex := by
  intro n
  obtain ⟨hdata, hcount⟩ := pos_spec n
  exact ⟨hdata, hcount, (rank_eq_length_dataIndicesBelow hdata).trans hcount,
    fun m _ hlo hhi => pos_eq_of_between hlo hhi⟩

/-- Settles O30: both lists have `D` entries, and entry `n` of the first is the data index with `n` below it. -/
theorem dataIndicesAreThePositions : Obligations.DataIndicesAreThePositions := by
  intro d hd
  refine List.ext_getElem ?_ fun n hn _ => ?_
  · rw [length_dataIndicesBelow_of_wellSized hd, List.length_map, List.length_range]
  · obtain ⟨-, hx, hcount⟩ := getElem?_dataIndicesBelow.mp (List.getElem?_eq_getElem hn)
    rw [List.getElem_map, List.getElem_range, ← pos_length_dataIndicesBelow hx, hcount]

/-! ## What a command leaves unchanged (R47) -/

/-- The host's side of a command that completes or faults: it gets one response (R70). -/
abbrev AnswersOnce (s t : State) : Prop := sameHost s t ∧ ∃ r, t.responses = s.responses ++ [r]

theorem answersOnce_addResponse (s : State) (r : Response) : AnswersOnce s (s.addResponse r) :=
  ⟨⟨rfl, rfl, rfl⟩, r, rfl⟩

theorem execEncode_answersOnce {len : Nat} {s t : State} (h : execEncode len s = .next t) : AnswersOnce s t := by
  obtain ⟨-, rfl⟩ | ⟨-, rfl⟩ := execEncode_next h
  · exact answersOnce_addResponse s _
  · exact answersOnce_addResponse ((s.setCw _).setDbc _) _

theorem execFlip_answersOnce {index : Nat} {s t : State} (h : execFlip index s = .next t) : AnswersOnce s t := by
  obtain ⟨-, rfl⟩ | ⟨-, -, rfl⟩ | ⟨-, -, -, rfl⟩ := execFlip_next h
  · exact answersOnce_addResponse s _
  · exact answersOnce_addResponse s _
  · exact answersOnce_addResponse (s.setCw _) _

theorem correct_answersOnce {st : Status} {syn : Nat} {s t : State} (h : correct st syn s = .next t) :
    AnswersOnce s t := by
  obtain ⟨-, rfl⟩ | ⟨-, rfl⟩ | ⟨-, -, -, rfl⟩ | ⟨-, -, -, rfl⟩ := correct_next h
  · exact answersOnce_addResponse s _
  · exact answersOnce_addResponse s _
  · exact answersOnce_addResponse s _
  · exact answersOnce_addResponse (s.setCw _) _

theorem execDiag_answersOnce {s t : State} (h : execDiag s = .next t) : AnswersOnce s t := by
  obtain ⟨-, rfl⟩ | ⟨-, -, h⟩ := execDiag_next h
  · exact answersOnce_addResponse s _
  · exact correct_answersOnce h

/-- The block of a command that toggles bit `i` or nothing: one byte, one bit of it, and nothing else is written. -/
theorem frame_of_sameBlock_or_togglesBit {s t : State} {i : Nat} (hwf : s.cw.wf = true)
    (h : sameBlock s t ∨ TogglesBit s t i) :
    (∀ b, b ≠ i / 8 → t.cw.readByte b = s.cw.readByte b) ∧ (∀ j, j ≠ i → cwGet t.cw j = cwGet s.cw j) ∧
      t.dbc = s.dbc ∧ t.config = s.config := by
  obtain ⟨hconfig, hcw, hdbc⟩ | ⟨-, hconfig, hcw, hdbc⟩ := h
  · rw [hcw]
    exact ⟨fun _ _ => rfl, fun _ _ => rfl, hdbc, hconfig⟩
  · rw [hcw]
    exact ⟨fun b hb => readByte_cwSet_ne s.cw _ hb, fun j hj => by rw [cwGet_flipBit hwf, if_neg hj], hdbc, hconfig⟩

/-- Settles O23: FLIP toggles bit ARG or changes nothing of the block. -/
theorem flipFrame : Obligations.FlipFrame := by
  intro s t index hwf h
  obtain ⟨hbytes, hbits, hdbc, hconfig⟩ := frame_of_sameBlock_or_togglesBit hwf (execFlip_block h)
  exact ⟨hbytes, hbits, hdbc, hconfig, execFlip_answersOnce h⟩

/-- Settles O42: DIAG toggles the bit at the syndrome or changes nothing of the block. -/
theorem diagFrame : Obligations.DiagFrame := by
  intro s t hwf h
  obtain ⟨hbytes, hbits, hdbc, hconfig⟩ := frame_of_sameBlock_or_togglesBit hwf (execDiag_block h)
  exact ⟨hbytes, hbits, hdbc, hconfig, execDiag_answersOnce h⟩

/-! ## The bytes outside the buffer -/

theorem readByte_eq_unlistedByte {m : Memory} {b : Nat} (h : ∀ i, i / 8 = b → cwGet m i = false) :
    m.readByte b = unlistedByte := by
  refine getBit_ext fun o ho => ?_
  have hbit := h (8 * b + o) (by omega)
  rw [cwGet, show (8 * b + o) / 8 = b by omega, show (8 * b + o) % 8 = o by omega] at hbit
  exact hbit.trans BitVec.getLsbD_zero.symm

theorem State.Inv.fits {s : State} (h : s.Inv) : s.Fits := by
  obtain hzero | ⟨len, ⟨-, hlen, -⟩, hdbc⟩ := h.dbc
  · simp [State.Fits, State.total, totalCount, parityCount, hzero]
  · rw [State.Fits, State.total, hdbc]
    exact (totalCount_le_maxTotal hlen).trans (maxTotal_le_cwBits s.config)

/-- The codeword fits the buffer, so what lies outside it is padding (R25). -/
theorem State.Inv.readByte_of_cwBytes_le {s : State} (h : s.Inv) {b : Nat} (hb : cwBytes s.config ≤ b) :
    s.cw.readByte b = unlistedByte := by
  refine readByte_eq_unlistedByte fun i hi => h.padding i (h.fits.trans ?_)
  rw [cwBits]
  omega

theorem State.Inv.execEncode {len : Nat} {s t : State} (hinv : s.Inv) (h : Machine.execEncode len s = .next t) :
    t.Inv := by
  obtain hsame | hcommit := execEncode_block h
  · exact hinv.of_sameBlock hsame
  · exact hcommit.inv hinv.config

theorem execEncode_config {len : Nat} {s t : State} (h : execEncode len s = .next t) : t.config = s.config := by
  obtain ⟨hconfig, -, -⟩ | hcommit := execEncode_block h
  · exact hconfig
  · exact hcommit.config

theorem execEncode_sameBlock_of_not_admitted {len : Nat} {s t : State} (h : execEncode len s = .next t)
    (hlen : ¬ Admitted s.config len) : sameBlock s t :=
  (execEncode_block h).resolve_right fun hcommit => hlen hcommit.admitted

/-- Settles O40: the invariant holds before and after ENCODE, and it makes every byte outside the buffer zero. -/
theorem encodeFrame : Obligations.EncodeFrame := by
  intro s t len hinv h
  have hconfig := execEncode_config h
  obtain ⟨hhost, hresponse⟩ := execEncode_answersOnce h
  refine ⟨hconfig, hhost, hresponse, fun b hb => ?_, fun hlen => ?_⟩
  · rw [hinv.readByte_of_cwBytes_le hb, (hinv.execEncode h).readByte_of_cwBytes_le (hconfig.symm ▸ hb)]
  · obtain ⟨-, hcw, hdbc⟩ := execEncode_sameBlock_of_not_admitted h hlen
    exact ⟨hdbc, fun b => by rw [hcw]⟩

end Sys2Proof.Machine
end

section
/-! PROOFS. The encoding (R61 to R65, R78): a command word is its two fields, and the decoder is the inverse of the
encoder. -/

namespace Sys2Proof

/-! ## A 16-bit word as a 4-bit and a 12-bit field (R61, R72) -/

theorem toNat_append_field (x : BitVec 4) (y : BitVec 12) : (x ++ y : Word).toNat = 4096 * x.toNat + y.toNat := by
  rw [BitVec.toNat_append, Nat.shiftLeft_eq, Nat.mul_comm, ← Nat.two_pow_add_eq_or_of_lt y.isLt]

/-- A 12-bit number is put into the low field by adding it. -/
theorem append_ofNat_eq_add (x : BitVec 4) {a : Nat} (ha : a < 4096) :
    (x ++ BitVec.ofNat 12 a : Word) = (x ++ 0#12 : Word) + BitVec.ofNat 16 a := by
  apply BitVec.eq_of_toNat_eq
  have hx := x.isLt
  simp only [BitVec.toNat_add, toNat_append_field, BitVec.toNat_ofNat]
  omega

/-- A 12-bit number is put into the low field by OR, too. -/
theorem append_ofNat_eq_or (x : BitVec 4) {a : Nat} (ha : a < 4096) :
    (x ++ BitVec.ofNat 12 a : Word) = (x ++ 0#12 : Word) ||| BitVec.ofNat 16 a := by
  apply BitVec.eq_of_toNat_eq
  simp only [BitVec.toNat_or, toNat_append_field, BitVec.toNat_ofNat, Nat.mod_eq_of_lt (show a < 2 ^ 12 from ha),
    Nat.mod_eq_of_lt (show a < 2 ^ 16 by omega)]
  exact Nat.two_pow_add_eq_or_of_lt (i := 12) ha x.toNat

theorem argOf_lt (w : Word) : argOf w < 4096 := Nat.mod_lt _ (by decide)

theorem opcOf_lt (w : Word) : opcOf w < 16 := Nat.div_lt_of_lt_mul w.isLt

/-- R61: OPC and ARG determine the word. -/
theorem formatC_eq_iff {opc arg : Nat} {w : Word} (hopc : opc < 16) (harg : arg < 4096) :
    formatC opc arg = w ↔ opcOf w = opc ∧ argOf w = arg := by
  rw [← BitVec.toNat_inj, formatC, toNat_append_field, BitVec.toNat_ofNat, BitVec.toNat_ofNat,
    Nat.mod_eq_of_lt (show opc < 2 ^ 4 from hopc), Nat.mod_eq_of_lt (show arg < 2 ^ 12 from harg), opcOf, argOf]
  omega

theorem opcOf_formatC {opc arg : Nat} (hopc : opc < 16) (harg : arg < 4096) : opcOf (formatC opc arg) = opc :=
  ((formatC_eq_iff hopc harg).mp rfl).1

theorem argOf_formatC {opc arg : Nat} (hopc : opc < 16) (harg : arg < 4096) : argOf (formatC opc arg) = arg :=
  ((formatC_eq_iff hopc harg).mp rfl).2

theorem formatC_opcOf_argOf (w : Word) : formatC (opcOf w) (argOf w) = w :=
  (formatC_eq_iff (opcOf_lt w) (argOf_lt w)).mpr ⟨rfl, rfl⟩

theorem formatC_eq_or {opc arg : Nat} (harg : arg < 4096) :
    formatC opc arg = formatC opc 0 ||| BitVec.ofNat 16 arg := append_ofNat_eq_or _ harg

/-- OPC by a shift. -/
theorem toNat_ushiftRight_twelve (w : Word) : (w >>> 12).toNat = opcOf w := by
  rw [BitVec.toNat_ushiftRight, Nat.shiftRight_eq_div_pow]
  rfl

/-- ARG by a mask. -/
theorem toNat_and_argMask (w : Word) : (w &&& 0x0FFF).toNat = argOf w :=
  (BitVec.toNat_and w _).trans (Nat.and_two_pow_sub_one_eq_mod w.toNat 12)

theorem and_argMask_eq_zero_iff (w : Word) : w &&& 0x0FFF = 0 ↔ argOf w = 0 := by
  rw [← toNat_and_argMask, ← BitVec.toNat_inj]
  rfl

/-- R63: the mask of ENCODE and FLIP keeps OPC. -/
theorem and_opcMask_eq_iff {w : Word} {opc : Nat} (hopc : opc < 16) :
    w &&& 0xF000 = formatC opc 0 ↔ opcOf w = opc := by
  have hmask : w &&& 0xF000 = formatC (opcOf w) 0 :=
    (congrArg (· &&& 0xF000) (formatC_opcOf_argOf w)).symm.trans
      (Laws.MatchesTableRow.formatC_opcode (BitVec.ofNat 4 (opcOf w)) (BitVec.ofNat 12 (argOf w)))
  rw [hmask, formatC_eq_iff (opcOf_lt w) (by decide), opcOf_formatC hopc (by decide), argOf_formatC hopc (by decide)]
  exact ⟨fun h => h.1.symm, fun h => ⟨h.symm, rfl⟩⟩

/-! ## The opcode map (R63) -/

/-- OPC of a command (R63). -/
def Instr.opcode : Instr → Nat
  | .encode _ => 1
  | .diag => 2
  | .decode => 3
  | .flip _ => 4

/-- ARG of a command, 0 for the two that have no operand (R63). -/
def Instr.argument : Instr → Nat
  | .encode len => len
  | .diag => 0
  | .decode => 0
  | .flip index => index

theorem Instr.opcode_lt (i : Instr) : i.opcode < 16 := by
  cases i <;> simp [Instr.opcode]

theorem Instr.wellFormed_iff (i : Instr) : i.WellFormed ↔ i.argument < 4096 := by
  cases i with
  | encode len => exact decide_eq_true_iff
  | diag => exact iff_of_true rfl (by decide)
  | decode => exact iff_of_true rfl (by decide)
  | flip index => exact decide_eq_true_iff

theorem encode_eq_formatC (i : Instr) : encode i = formatC i.opcode i.argument := by
  cases i <;> rfl

/-- The decoder gives the one command whose OPC and ARG are the word's. -/
theorem decode_eq_ok_iff {w : Word} {i : Instr} : decode w = .ok i ↔ opcOf w = i.opcode ∧ argOf w = i.argument := by
  constructor
  · intro h
    unfold decode at h
    split at h
    · cases h
      exact ⟨‹_›, rfl⟩
    · split at h
      · cases h
        exact ⟨‹_›, ‹_›⟩
      · cases h
    · split at h
      · cases h
        exact ⟨‹_›, ‹_›⟩
      · cases h
    · cases h
      exact ⟨‹_›, rfl⟩
    · cases h
  · rintro ⟨hopc, harg⟩
    cases i <;> simp [decode, hopc, harg, Instr.opcode, Instr.argument]

/-- Settles O1: both sides say that the word's OPC and ARG are the command's. -/
theorem decodeIsTheInverseOfEncode : Obligations.DecodeIsTheInverseOfEncode := by
  intro w i
  rw [decode_eq_ok_iff, i.wellFormed_iff, encode_eq_formatC]
  constructor
  · rintro ⟨hopc, harg⟩
    have hlt : i.argument < 4096 := harg ▸ argOf_lt w
    exact ⟨hlt, (formatC_eq_iff i.opcode_lt hlt).mpr ⟨hopc, harg⟩⟩
  · rintro ⟨hlt, hw⟩
    exact (formatC_eq_iff i.opcode_lt hlt).mp hw

/-- A command that a command word can express is read back from its word. -/
theorem decode_encode {i : Instr} (hi : i.WellFormed) : decode (encode i) = .ok i :=
  (decodeIsTheInverseOfEncode (encode i) i).mpr ⟨hi, rfl⟩

/-- The rows of ENCODE and FLIP, whose mask leaves ARG free. -/
theorem decode_eq_ok_iff_opcMask {w row : Word} {i : Instr} (hrow : formatC i.opcode 0 = row) :
    decode w = .ok i ↔ w &&& 0xF000 = row ∧ i.argument = (w &&& 0x0FFF).toNat := by
  rw [decode_eq_ok_iff, ← hrow, and_opcMask_eq_iff i.opcode_lt, toNat_and_argMask, eq_comm (a := argOf w)]

/-- The rows of DIAG and DECODE, whose mask keeps the whole word. -/
theorem decode_eq_ok_iff_fullMask {w : Word} {i : Instr} (hi : i.WellFormed) :
    decode w = .ok i ↔ w &&& 0xFFFF = encode i := by
  have hmask : w &&& 0xFFFF = w := BitVec.and_allOnes
  rw [decodeIsTheInverseOfEncode, and_iff_right hi, hmask, eq_comm]

/-- Settles O2: a word selects the row of the one command whose OPC and ARG are its own. -/
theorem wordSelectsItsTableRow : Obligations.WordSelectsItsTableRow := fun _ =>
  ⟨fun len => decode_eq_ok_iff_opcMask (i := .encode len) (show formatC 1 0 = 0x1000 by decide),
    decode_eq_ok_iff_fullMask (i := .diag) rfl,
    decode_eq_ok_iff_fullMask (i := .decode) rfl,
    fun index => decode_eq_ok_iff_opcMask (i := .flip index) (show formatC 4 0 = 0x4000 by decide)⟩

/-! ## The illegal words (R65) -/

theorem decode_eq_error_iff {w : Word} :
    (∃ e, decode w = .error e) ↔
      opcOf w = 0 ∨ 5 ≤ opcOf w ∨ ((opcOf w = 2 ∨ opcOf w = 3) ∧ argOf w ≠ 0) := by
  unfold decode
  split
  · next hopc => simp [hopc]
  · next hopc => split <;> simp [*]
  · next hopc => split <;> simp [*]
  · next hopc => simp [hopc]
  · simp only [imp_false] at *
    exact iff_of_true ⟨_, rfl⟩ (by omega)

/-- Settles O3: OPC by a shift and ARG by a mask are the decoder's two fields. -/
theorem illegalWordsAreExactlyThese : Obligations.IllegalWordsAreExactlyThese := by
  intro w
  rw [toNat_ushiftRight_twelve, Ne, and_argMask_eq_zero_iff]
  exact decode_eq_error_iff

/-- Settles O4: the eleven words are fixed, so the decoder is run on each. -/
theorem sampleWordsDecode : Obligations.SampleWordsDecode := by
  unfold Obligations.SampleWordsDecode
  decide

end Sys2Proof

namespace Sys2Proof.Machine

/-! ## Command sequences (R78) -/

/-- A line that names a well-formed command presents a word that decodes to the command. -/
theorem commandAction_of_encode_eq {i : Instr} {w : Word} (hi : i.WellFormed) (hw : encode i = w)
    (bytes : List Byte) : commandAction i bytes = some (.command w bytes) ∧ decode w = .ok i := by
  subst hw
  exact ⟨if_pos hi, decode_encode hi⟩

/-- Settles O5: each line presents the encoding of its command, which the rule writes as OPC in bits 15:12 OR the
operand. -/
theorem assembledLinesDecodeToTheirCommands : Obligations.AssembledLinesDecodeToTheirCommands :=
  ⟨fun bytes hlen => commandAction_of_encode_eq (i := .encode bytes.length) (decide_eq_true hlen)
      (formatC_eq_or hlen) bytes,
    commandAction_of_encode_eq (i := .diag) rfl rfl [],
    commandAction_of_encode_eq (i := .decode) rfl rfl [],
    fun index hindex => commandAction_of_encode_eq (i := .flip index) (decide_eq_true hindex)
      (formatC_eq_or hindex) [],
    rfl⟩

/-! ## The status outputs (R74) -/

theorem State.getD_cwOut {s : State} {b : Nat} (hb : b < cwBytes s.config) : s.cwOut.getD b 0 = s.cw.readByte b := by
  have hlen : b < s.cwOut.length := by rwa [State.cwOut, List.length_map, List.length_range]
  rw [List.getD_eq_getElem _ _ hlen]
  simp only [State.cwOut, List.getElem_map, List.getElem_range]

/-- Settles O17: lane `b` of CW_OUT is byte `b` of the buffer, and a bit is read from its byte. -/
theorem statusOutputsShowTheState : Obligations.StatusOutputsShowTheState := by
  intro s
  refine ⟨by rw [State.cwOut, List.length_map, List.length_range], fun i hi => ?_, rfl⟩
  rw [State.getD_cwOut (Nat.div_lt_of_lt_mul hi)]
  rfl

end Sys2Proof.Machine
end

section
/-! PROOFS. What ENCODE reads of DIN (R66): the walk of R130 places one data bit for each data index, so an admitted
length reads the data bits of its own bytes only. -/

namespace Sys2Proof.Machine

theorem placeData_succ (d : List Byte) (p t : Nat) : placeData d p (t + 1) = placeAt d (placeData d p t) t := by
  rw [placeData, List.range_succ, List.foldl_append]
  rfl

theorem placeAt_n (d : List Byte) (w : Placement) (i : Nat) :
    (placeAt d w i).n = w.n + (isDataIndex i).toNat := by
  unfold placeAt isDataIndex
  split
  · next hi => simp [hi]
  · next hi => split <;> simp [hi]

/-- The walk places as many data bits as it meets data indices. -/
theorem placeData_n (d : List Byte) (p t : Nat) : (placeData d p t).n = (dataIndicesBelow t).length := by
  induction t with
  | zero => rfl
  | succ t ih => rw [placeData_succ, placeAt_n, ih, length_dataIndicesBelow_succ]

/-- At a data index the walk reads the next data bit, at a reserved one none. -/
theorem placeAt_congr {d e : List Byte} {w : Placement} {i : Nat}
    (h : isDataIndex i = true → dataBit d w.n = dataBit e w.n) : placeAt d w i = placeAt e w i := by
  unfold placeAt
  split
  · rfl
  · next hi => rw [h (by simpa [isDataIndex] using hi)]

theorem placeData_congr {d e : List Byte} {p t : Nat}
    (h : ∀ n, n < (dataIndicesBelow t).length → dataBit d n = dataBit e n) : placeData d p t = placeData e p t := by
  induction t with
  | zero => rfl
  | succ t ih =>
    rw [length_dataIndicesBelow_succ] at h
    rw [placeData_succ, placeData_succ, ih fun n hn => h n (by omega)]
    refine placeAt_congr fun ht => h _ ?_
    rw [placeData_n, ht, Bool.toNat_true]
    exact Nat.lt_succ_self _

/-- The codeword depends on its own data bits only. -/
theorem buildCodeword_congr {d e : List Byte} {dbits : Nat} (hwell : wellSized dbits = true)
    (h : ∀ n, n < dbits → dataBit d n = dataBit e n) : buildCodeword d dbits = buildCodeword e dbits := by
  rw [← length_dataIndicesBelow_of_wellSized hwell] at h
  rw [buildCodeword, buildCodeword, placeData_congr h]

theorem dataBit_congr {d e : List Byte} {len : Nat} (h : ∀ k, k < len → d.getD k 0 = e.getD k 0) {n : Nat}
    (hn : n < 8 * len) : dataBit d n = dataBit e n := by
  rw [dataBit, dataBit, h (n / 8) (Nat.div_lt_of_lt_mul hn)]

theorem execEncode_of_admitted {s : State} {len : Nat} (h : Admitted s.config len) :
    execEncode len s = respond (plainResponse s.config)
      ((s.setCw (buildCodeword s.din (8 * len))).setDbc (BitVec.ofNat 12 (8 * len))) := by
  rw [execEncode, encodeRejects_eq_false.mpr h]
  rfl

theorem execEncode_of_not_admitted {s : State} {len : Nat} (h : ¬ Admitted s.config len) :
    execEncode len s = raise .invalidInput s :=
  if_pos ((Bool.not_eq_false _).mp (mt encodeRejects_eq_false.mp h))

/-- Settles O39: an admitted length builds the same codeword from both DINs, any other reads no lane. -/
theorem encodeIgnoresHigherLanes : Obligations.EncodeIgnoresHigherLanes := by
  intro s t d len hlanes h
  by_cases hlen : Admitted s.config len
  · obtain rfl := respond_next ((execEncode_of_admitted hlen).symm.trans h)
    have hcw : buildCodeword d (8 * len) = buildCodeword s.din (8 * len) :=
      buildCodeword_congr hlen.2.2 fun _ hn => dataBit_congr hlanes hn
    have hd := execEncode_of_admitted (s := { s with din := d }) hlen
    rw [hcw] at hd
    exact hd
  · obtain rfl := raise_next ((execEncode_of_not_admitted hlen).symm.trans h)
    exact execEncode_of_not_admitted (s := { s with din := d }) hlen

end Sys2Proof.Machine
end

section
/-! PROOFS. The decision table of DIAG (R144 to R148): the range of the syndrome (R141), the rows of the table, and the
response of each. -/

namespace Sys2Proof.Machine

/-! ## The range of the syndrome (R116, R141) -/

theorem disagreement_le (m : Memory) (t k : Nat) : disagreement m t k ≤ 2 ^ k := by
  unfold disagreement
  split
  · exact Nat.le_refl _
  · exact Nat.zero_le _

/-- R141: the syndrome is at most `2^(P-1) - 1`. -/
theorem syndrome_lt_two_pow (m : Memory) (p t : Nat) : Machine.syndrome m p t < 2 ^ (p - 1) := by
  have hsum : ∀ n, ((List.range n).map (disagreement m t)).sum < 2 ^ n := by
    intro n
    induction n with
    | zero => exact Nat.one_pos
    | succ n ih =>
      have hn := disagreement_le m t n
      simp only [List.range_succ, List.map_append, List.sum_append, List.map_singleton, List.sum_singleton]
      omega
  exact hsum (p - 1)

/-- R141: a parity index that is a syndrome lies below T. -/
theorem State.syndrome_lt_total {s : State} {k : Nat} (h : s.syndrome = 2 ^ k) : s.syndrome < s.total := by
  have hk : 2 ^ k < 2 ^ (s.parity - 1) := h ▸ syndrome_lt_two_pow s.cw s.parity s.total
  have hkp := (Nat.pow_lt_pow_iff_right (a := 2) (by decide)).mp hk
  rw [h]
  exact two_pow_lt_totalCount (Nat.add_lt_of_lt_sub hkp)

/-- R116: in an admissible build a codeword has at most 13 parity bits. -/
theorem State.Inv.parity_le {s : State} (h : s.Inv) : s.parity ≤ 13 := by
  obtain hzero | ⟨len, ⟨-, hlen, -⟩, hdbc⟩ := h.dbc
  · rw [State.parity, hzero]
    decide
  · have hmax := h.config.2
    calc s.parity = parityCount (8 * len) := by rw [State.parity, hdbc]
      _ ≤ parityCount 4080 := parityCount_mono (by omega)
      _ = 13 := by decide +kernel

/-- R116: the syndrome fits the report word's field. -/
theorem State.Inv.syndrome_lt {s : State} (h : s.Inv) : s.syndrome < 4096 :=
  calc s.syndrome < 2 ^ (s.parity - 1) := syndrome_lt_two_pow s.cw s.parity s.total
    _ ≤ 2 ^ 12 := Nat.pow_le_pow_right (by decide) (Nat.sub_le_of_le_add h.parity_le)

/-! ## The rows of the table (R144) -/

theorem classify_even {syn : Nat} (hsyn : syn ≠ 0) : classify syn true = .multiBitError := by
  simp [classify, hsyn]

theorem classify_odd_two_pow (k : Nat) : classify (2 ^ k) false = .parityBitError := by
  simp [classify, isPowerOfTwo_two_pow]

theorem classify_odd {syn : Nat} (hsyn : syn ≠ 0) (hpow : ¬ ∃ k, syn = 2 ^ k) :
    classify syn false = .dataBitError := by
  have hp : isPowerOfTwo syn = false := Bool.eq_false_iff.mpr (mt isPowerOfTwo_iff.mp (not_or.mpr ⟨hsyn, hpow⟩))
  simp [classify, hsyn, hp]

/-! ## The responses (R72, R145, R148) -/

/-- R72: the syndrome is added to the report word of the status. -/
theorem reportWord_eq_add (st : Status) {syn : Nat} (h : syn < 4096) :
    reportWord st syn = reportWord st 0 + BitVec.ofNat 16 syn := append_ofNat_eq_add _ h

theorem correct_of_lt {st : Status} {syn : Nat} {s : State} (hmulti : st ≠ .multiBitError) (hnone : st ≠ .noError)
    (h : syn < s.total) :
    correct st syn s = respond (reportResponse s.config st syn) (s.setCw (flipBit s.cw syn)) := by
  cases st with
  | multiBitError => exact absurd rfl hmulti
  | noError => exact absurd rfl hnone
  | masterParityBitError | parityBitError | dataBitError => exact if_neg (Nat.not_le.mpr h)

theorem correct_of_le {st : Status} {syn : Nat} {s : State} (hmulti : st ≠ .multiBitError) (hnone : st ≠ .noError)
    (h : s.total ≤ syn) : correct st syn s = raise .indexOutOfRange s := by
  cases st with
  | multiBitError => exact absurd rfl hmulti
  | noError => exact absurd rfl hnone
  | masterParityBitError | parityBitError | dataBitError => exact if_pos h

/-- A held codeword is diagnosed: step 4 acts on its row of the table. -/
theorem State.Holds.execDiag {s : State} (h : s.Holds) :
    Machine.execDiag s = correct (classify s.syndrome s.even) s.syndrome s :=
  needCodeword_of_fits h.nonempty h.inv.fits

/-- A completed DIAG that corrects: the bit at the syndrome is toggled, and the syndrome reported with the status. -/
theorem State.Holds.execDiag_of_lt {s : State} (h : s.Holds) {st : Status} (hst : classify s.syndrome s.even = st)
    (hmulti : st ≠ .multiBitError) (hnone : st ≠ .noError) (hsyn : s.syndrome < s.total) :
    Machine.execDiag s = .next { s with
      cw := flipBit s.cw s.syndrome
      responses := s.responses ++ [⟨0, reportWord st 0 + BitVec.ofNat 16 s.syndrome, 0, zeroDout s.config⟩] } := by
  rw [h.execDiag, hst, correct_of_lt hmulti hnone hsyn, ← reportWord_eq_add st h.inv.syndrome_lt]
  rfl

/-- Settles O41: the row of the table fixes the status, and the status what step 4 does; the syndrome fits its field,
and a syndrome that is a power of two is below T. -/
theorem diagFollowsTheDecisionTable : Obligations.DiagFollowsTheDecisionTable := by
  intro s hs
  refine ⟨fun hsyn heven => ?_, fun hsyn heven => ?_, fun hsyn heven => ?_, fun hsyn heven hpow => ?_,
    fun hsyn heven hpow hlt => ?_, fun hsyn heven hpow hle => ?_⟩
  · exact hs.execDiag.trans (by rw [hsyn, heven]; rfl)
  · have hpos : s.syndrome < s.total := hsyn ▸ totalCount_pos hs.wellSized_dbc.1
    have hst : classify s.syndrome s.even = .masterParityBitError := by rw [hsyn, heven]; rfl
    have hexec := hs.execDiag_of_lt hst (by decide) (by decide) hpos
    rw [hsyn] at hexec
    exact hexec
  · refine hs.execDiag.trans ?_
    rw [heven, classify_even hsyn, correct, reportResponse, reportWord_eq_add _ hs.inv.syndrome_lt]
    rfl
  · obtain ⟨k, hk⟩ := hpow
    have hst : classify s.syndrome s.even = .parityBitError := by rw [hk, heven, classify_odd_two_pow]
    exact hs.execDiag_of_lt hst (by decide) (by decide) (State.syndrome_lt_total hk)
  · have hst : classify s.syndrome s.even = .dataBitError := by rw [heven, classify_odd hsyn hpow]
    exact hs.execDiag_of_lt hst (by decide) (by decide) hlt
  · refine hs.execDiag.trans ?_
    rw [heven, classify_odd hsyn hpow, correct_of_le (by decide) (by decide) hle]
    rfl

end Sys2Proof.Machine
end

section
/-! PROOFS. The bit plane (R90 to R96): one bit of a byte, the reserved indices, and the two answers of FLIP on a block
that holds a codeword. -/

namespace Sys2Proof.Machine

/-! ## One bit of a byte (R90, R91) -/

/-- R91: the second of two equal writes does nothing. -/
theorem setBit_setBit (byte : Byte) {offset : Nat} (ho : offset < 8) (v : Bool) :
    setBit (setBit byte offset v.toNat) offset v.toNat = setBit byte offset v.toNat := by
  refine getBit_ext fun j hj => ?_
  rw [getBit_setBit _ ho hj]
  split
  · next h => rw [getBit_setBit _ ho hj, if_pos h]
  · rfl

/-- R91: a value in the domain of `setBit` is that of a Boolean. -/
theorem toNat_decide_eq_one {value : Nat} (h : value < 2) : (decide (value = 1)).toNat = value := by
  obtain rfl | rfl : value = 0 ∨ value = 1 := by omega
  · rfl
  · rfl

/-- Settles O18: a value in the domain is a Boolean, of which the laws of `setBit` speak; outside the domain `setBit`
takes its first branch. -/
theorem setBitWritesOneBitOfAByte : Obligations.SetBitWritesOneBitOfAByte := by
  intro byte offset value
  refine ⟨fun ho hv => ?_, fun hout => if_pos hout⟩
  have hread (j : Nat) (hj : j < 8) := getBit_setBit byte ho hj (decide (value = 1))
  have htwice := setBit_setBit byte ho (decide (value = 1))
  rw [toNat_decide_eq_one hv] at hread htwice
  exact ⟨hread, htwice⟩

/-! ## The reserved indices (R92) -/

/-- Settles O19: the bit test clears the lowest one of `n`, which leaves 0 exactly for the powers of two. -/
theorem isPowerOfTwoHoldsOfZeroAndPowers : Obligations.IsPowerOfTwoHoldsOfZeroAndPowers :=
  fun _ => isPowerOfTwo_iff

/-! ## The FLIP command (R96) -/

/-- A FLIP of a valid index completes. -/
theorem execFlip_of_lt {s : State} {index : Nat} (hdbc : s.dbc ≠ 0) (hfits : s.Fits) (h : index < s.total) :
    execFlip index s = .next ((s.setCw (flipBit s.cw index)).addResponse (plainResponse s.config)) :=
  (needCodeword_of_fits hdbc hfits).trans (if_neg (Nat.not_le.mpr h))

/-- A FLIP at or above T faults (R173). -/
theorem execFlip_of_le {s : State} {index : Nat} (hdbc : s.dbc ≠ 0) (hfits : s.Fits) (h : s.total ≤ index) :
    execFlip index s = raise .indexOutOfRange s :=
  (needCodeword_of_fits hdbc hfits).trans (if_pos h)

/-- Settles O20: the FLIP completes, and a toggled bit is read by the law of `flipBit`. -/
theorem flipTogglesTheBit : Obligations.FlipTogglesTheBit := by
  intro s index hs hindex
  have hcanonical := hs.inv.canonical
  refine ⟨_, execFlip_of_lt hs.nonempty hs.inv.fits hindex, fun i => ?_, flipBit_wf hcanonical index, rfl, rfl,
    ⟨rfl, rfl, rfl⟩, rfl⟩
  rw [State.addResponse_cw, State.setCw_cw, cwGet_flipBit hcanonical]
  split
  · next h => rw [h]
  · rfl

/-- Settles O21: the first FLIP keeps DBC, so the second is of a valid index too, and two toggles of one bit restore
the canonical buffer. -/
theorem flipTwiceRestoresTheCodeword : Obligations.FlipTwiceRestoresTheCodeword := by
  intro s t u index hs hindex hfirst hsecond
  obtain rfl := Host.Outcome.next.inj (hfirst.symm.trans (execFlip_of_lt hs.nonempty hs.inv.fits hindex))
  obtain rfl := Host.Outcome.next.inj (hsecond.symm.trans (execFlip_of_lt hs.nonempty hs.inv.fits hindex))
  exact ⟨rfl, flipBit_flipBit hs.inv.canonical index, rfl⟩

/-- Settles O22: on a codeword that fits the buffer the range check is what decides. -/
theorem flipOutOfRangeFaults : Obligations.FlipOutOfRangeFaults :=
  fun _ _ hdbc hfits hindex => execFlip_of_le hdbc hfits hindex

end Sys2Proof.Machine
end

section
/-! PROOFS. Sizes and parity (R110 to R122): well-sized data-bit counts by an inequality, the ranges of the quantities,
the parity groups of a data index, and how one flip moves the parities. -/

namespace Sys2Proof.Machine

/-! ## Well-sized data-bit counts (R114) -/

theorem one_le_of_wellSized {d : Nat} (h : wellSized d = true) : 1 ≤ d :=
  of_decide_eq_true ((Bool.and_eq_true _ _).mp h).1

/-- R114: the codeword ends before the next power of two. -/
theorem wellSized_iff_lt {d : Nat} (hd : 1 ≤ d) : wellSized d = true ↔ d + d.log2 + 1 < 2 ^ (d.log2 + 1) := by
  have hlast : totalCount d - 1 = d + d.log2 + 1 := by rw [totalCount_of_pos hd]; omega
  have hlow : 2 ^ d.log2 ≤ d := Nat.log2_self_le (by omega)
  rw [wellSized_iff_log2 hd, hlast, Nat.log2_eq_iff (by omega)]
  exact and_iff_right (by omega)

/-- Settles O24: `floor_log2(T - 1)` is at least `floor_log2(D)`, and equal to it below the next power of two. -/
theorem wellSizedByLogarithms : Obligations.WellSizedByLogarithms :=
  fun _ hd => ⟨wellSized_iff_log2 hd, wellSized_iff_lt hd⟩

theorem log2_eight_mul {n : Nat} (hn : 1 ≤ n) : (8 * n).log2 = n.log2 + 3 := by
  rw [show 8 * n = 2 * (2 * (2 * n)) by omega, Nat.log2_two_mul (by omega), Nat.log2_two_mul (by omega),
    Nat.log2_two_mul (by omega)]

/-- A byte count is ill-sized when it falls short of the next power of two by at most `(floor_log2(len) + 4) / 8`. -/
theorem wellSized_eight_mul_eq_false_iff {len : Nat} (hlen : 1 ≤ len) :
    wellSized (8 * len) = false ↔ 8 * 2 ^ (len.log2 + 1) ≤ 8 * len + len.log2 + 4 := by
  have hpow : 2 ^ (len.log2 + 3 + 1) = 8 * 2 ^ (len.log2 + 1) := by ring
  rw [← Bool.not_eq_true, wellSized_iff_lt (by omega), log2_eight_mul hlen, hpow, Nat.not_lt]
  rfl

/-- Settles O25: below 4096 the shortfall that makes a byte count ill-sized is one byte, from `floor_log2(len) = 4` on;
from 4096 up it may be two bytes, and no count up to 8189 comes that near to 8192. -/
theorem illSizedLengthsAreOneBelowPowers : Obligations.IllSizedLengthsAreOneBelowPowers := by
  intro len hlen hmax
  rw [wellSized_eight_mul_eq_false_iff hlen]
  refine ⟨fun hshort => ?_, ?_⟩
  · have hhigh : len < 2 ^ (len.log2 + 1) := Nat.lt_log2_self
    have hlog : len.log2 < 13 := (Nat.log2_lt (by omega)).mpr (by omega)
    have hne : len.log2 ≠ 12 := fun h => by
      rw [h] at hshort
      omega
    exact ⟨len.log2 + 1, by omega, by omega, by omega⟩
  · rintro ⟨j, hlow, -, hj⟩
    have hpred : j - 1 + 1 = j := Nat.sub_add_cancel (by omega)
    have hhalf : 2 ^ (j - 1) * 2 = 2 ^ j := Nat.two_pow_pred_mul_two (by omega)
    have hlog : len.log2 = j - 1 := (Nat.log2_eq_iff (by omega)).mpr ⟨by omega, by rw [hpred]; omega⟩
    rw [hlog, hpred]
    omega

/-! ## The ranges of the quantities (R116) -/

/-- The sizes of the longest codeword of any admissible build (R116). -/
theorem sizes_largest : parityCount 4080 = 13 ∧ totalCount 4080 = 4093 ∧ byteLength 4080 = 512 := by decide +kernel

/-- Settles O27: P, T and BL are monotone, so they are largest at `D = 8 * 510`; a syndrome has `P - 1` bits. -/
theorem quantitiesFitTheirFields : Obligations.QuantitiesFitTheirFields := by
  rintro c len m ⟨-, hbuild⟩ ⟨-, hlen, -⟩
  have hd : 8 * len ≤ 4080 := by omega
  obtain ⟨hparity, htotal, hbytes⟩ := sizes_largest
  have hp : parityCount (8 * len) ≤ 13 := hparity ▸ parityCount_mono hd
  have hsyn : syndrome m (parityCount (8 * len)) (totalCount (8 * len)) < 2 ^ 12 :=
    (syndrome_lt_two_pow m _ _).trans_le (Nat.pow_le_pow_right (by decide) (Nat.sub_le_of_le_add hp))
  exact ⟨hd, hp, htotal ▸ totalCount_mono hd, hbytes ▸ byteLength_mono hd, Nat.le_of_lt_succ hsyn⟩

/-! ## The parity groups of a data index (R119) -/

/-- R119: a data index is neither 0 nor a power of two, so it has a set bit below its leading one. -/
theorem exists_two_testBit_of_isDataIndex {i : Nat} (h : isDataIndex i = true) :
    ∃ j k, j < k ∧ i.testBit j = true ∧ i.testBit k = true := by
  rw [isDataIndex, Bool.not_eq_true', Bool.eq_false_iff, Ne, isPowerOfTwo_iff, not_or] at h
  obtain ⟨hzero, hpow⟩ := h
  have hlead : i.testBit i.log2 = true := Nat.testBit_log2 hzero
  obtain ⟨j, hj⟩ := Nat.exists_testBit_ne_of_ne fun heq : i = 2 ^ i.log2 => hpow ⟨_, heq⟩
  rw [Nat.testBit_two_pow] at hj
  have hne : i.log2 ≠ j := by
    rintro rfl
    simp [hlead] at hj
  have hset : i.testBit j = true := by simpa [hne] using hj
  have hle : j ≤ i.log2 := (Nat.le_log2 hzero).mpr (Nat.ge_two_pow_of_testBit hset)
  exact ⟨j, i.log2, by omega, hset, hlead⟩

/-- R114: each set bit of an index below T makes a reserved index below T, so it numbers a parity group. -/
theorem le_parityCount_of_testBit {d i k : Nat} (h : wellSized d = true) (hi : i < totalCount d)
    (hk : i.testBit k = true) : k + 2 ≤ parityCount d :=
  (two_pow_lt_totalCount_iff (one_le_of_wellSized h) h).mp ((Nat.ge_two_pow_of_testBit hk).trans_lt hi)

/-- Settles O31: a data index has two set bits, and lies in the group of each of its set bits. -/
theorem everyDataIndexIsCoveredTwice : Obligations.EveryDataIndexIsCoveredTwice := by
  intro d i hwell hi hdata
  have hbound : ∀ k, i.testBit k = true → k + 2 ≤ parityCount d := fun _ => le_parityCount_of_testBit hwell hi
  obtain ⟨j, k, hjk, hj, hk⟩ := exists_two_testBit_of_isDataIndex hdata
  exact ⟨⟨j, k, hjk, hbound k hk, mem_groupIndices.mpr ⟨hi, hdata, hj⟩, mem_groupIndices.mpr ⟨hi, hdata, hk⟩⟩, hbound⟩

/-! ## How one flip moves the parities (R121, R122) -/

theorem overallEven_flipBit {m : Memory} (hm : m.wf = true) {t i : Nat} (hi : i < t) :
    overallEven (flipBit m i) t = !overallEven m t := by
  rw [overallEven, xorBits_flipBit hm i List.nodup_range, decide_eq_true (List.mem_range.mpr hi), Bool.xor_true,
    overallEven]

/-- A flip of a valid bit toggles the groups that a data index lies in, and no group at a reserved index. -/
theorem groupParity_flipBit {m : Memory} (hm : m.wf = true) {t i : Nat} (hi : i < t) (k : Nat) :
    groupParity (flipBit m i) t k = (groupParity m t k ^^ (isDataIndex i && i.testBit k)) := by
  have hmem : decide (i ∈ groupIndices t k) = (isDataIndex i && i.testBit k) := by
    simp [mem_groupIndices, hi]
  rw [groupParity, xorBits_flipBit hm i (groupIndices_nodup t k), hmem, groupParity]

theorem cwGet_flipBit_eq_xor {m : Memory} (hm : m.wf = true) (i j : Nat) :
    cwGet (flipBit m i) j = (cwGet m j ^^ decide (i = j)) := by
  rw [cwGet_flipBit hm]
  by_cases h : j = i
  · simp [h]
  · simp [h, Ne.symm h]

/-- Settles O32: a flip toggles the parity of the lists that hold its index: the valid indices, and at a data index the
groups of its set bits. -/
theorem oneFlipMovesTheParities : Obligations.OneFlipMovesTheParities := by
  intro m t i hm hi
  refine ⟨overallEven_flipBit hm hi, fun k hdata => ?_, fun k hreserved => ?_, fun k => cwGet_flipBit_eq_xor hm i _⟩
  · rw [groupParity_flipBit hm hi, hdata, Bool.true_and]
  · rw [groupParity_flipBit hm hi, isDataIndex, hreserved, Bool.not_true, Bool.false_and, Bool.xor_false]

/-- R120, R121: the parity of the whole codeword is the master bit's and the rest parity together. -/
theorem overallEven_eq {m : Memory} {t : Nat} (ht : 1 ≤ t) : overallEven m t = !(cwGet m 0 ^^ restParity m t) := by
  obtain ⟨n, rfl⟩ := Nat.exists_eq_add_of_le' ht
  rw [overallEven, List.range_eq_range', List.range'_succ, xorBits_cons, restParity, Nat.add_sub_cancel]

/-- Settles O33: an XOR is even exactly when its two parts agree. -/
theorem overallEvenComparesTheMasterBit : Obligations.OverallEvenComparesTheMasterBit := by
  intro m t ht
  rw [overallEven_eq ht, Bool.not_eq_true']
  exact bne_eq_false_iff_eq

end Sys2Proof.Machine
end

section
/-! PROOFS. ENCODE (R130 to R135): what each step of R130 writes, the consistent codeword that results, its uniqueness,
and the rejected lengths. -/

namespace Sys2Proof.Machine

/-! ## What a data index is not, and what the parities read -/

theorem isDataIndex_iff {i : Nat} : isDataIndex i = true ↔ i ≠ 0 ∧ ∀ k, i ≠ 2 ^ k := by
  rw [isDataIndex, Bool.not_eq_true', Bool.eq_false_iff, Ne, isPowerOfTwo_iff, not_or, not_exists]

theorem isDataIndex_zero : isDataIndex 0 = false := rfl

theorem isDataIndex_two_pow (k : Nat) : isDataIndex (2 ^ k) = false := by
  rw [isDataIndex, isPowerOfTwo_two_pow, Bool.not_true]

/-- A group parity reads data indices only (R118). -/
theorem groupParity_congr {m c : Memory} {t : Nat}
    (h : ∀ i, i < t → isDataIndex i = true → cwGet m i = cwGet c i) (k : Nat) :
    groupParity m t k = groupParity c t k :=
  xorBits_congr fun i hi => by
    obtain ⟨hlt, hdata, -⟩ := mem_groupIndices.mp hi
    exact h i hlt hdata

/-- The rest parity does not read the master bit (R120). -/
theorem restParity_congr {m c : Memory} (t : Nat) (h : ∀ i, i ≠ 0 → cwGet m i = cwGet c i) :
    restParity m t = restParity c t :=
  xorBits_congr fun i hi => h i (Nat.one_le_iff_ne_zero.mp (List.mem_range'_1.mp hi).1)

/-- Group `k` grows by the data indices that have bit `k`. -/
theorem countP_groupIndices_succ (f : Nat → Bool) (t k : Nat) :
    (groupIndices (t + 1) k).countP f =
      (groupIndices t k).countP f + (isDataIndex t && t.testBit k && f t).toNat := by
  cases hdata : isDataIndex t with
  | false => simp [groupIndices, dataIndicesBelow, List.range_succ, hdata]
  | true => cases hbit : t.testBit k <;>
      simp [groupIndices, dataIndicesBelow, List.range_succ, hdata, hbit, List.countP_singleton, Bool.toNat]

/-! ## Step 3: the data bits and the accumulators (R130, R132) -/

/-- At an index not yet written, the walk writes the next data bit if it is a data index. -/
theorem cwGet_placeAt_self (d : List Byte) {w : Placement} (hw : w.buf.wf = true) {i : Nat}
    (hi : cwGet w.buf i = false) : cwGet (placeAt d w i).buf i = (isDataIndex i && dataBit d w.n) := by
  unfold placeAt isDataIndex
  split
  · next hpow => rw [hi, hpow]; rfl
  · next hpow =>
    rw [Bool.eq_false_iff.mpr hpow, Bool.not_false, Bool.true_and]
    split
    · next hbit => rw [cwGet_cwSet hw, if_pos rfl, hbit]
    · next hbit => rw [hi, Bool.eq_false_iff.mpr hbit]

/-- Data bit `n` stands at the data index with `n` data indices below it (R43), and every reserved index is still 0. -/
theorem cwGet_placeData (d : List Byte) (p : Nat) {t i : Nat} (hi : i < t) :
    cwGet (placeData d p t).buf i = (isDataIndex i && dataBit d (dataIndicesBelow i).length) := by
  induction t, hi using Nat.le_induction with
  | base =>
    rw [placeData_succ, cwGet_placeAt_self d (placeData_wf d p i) (cwGet_placeData_of_le d p (Nat.le_refl i)),
      placeData_n]
  | succ t hit ih =>
    rw [placeData_succ, cwGet_placeAt_of_ne d (placeData_wf d p t) (Nat.ne_of_lt hit), ih]

theorem cwGet_placeData_of_reserved (d : List Byte) (p t : Nat) {i : Nat} (hi : isDataIndex i = false) :
    cwGet (placeData d p t).buf i = false := by
  obtain hlt | hle := Nat.lt_or_ge i t
  · rw [cwGet_placeData d p hlt, hi, Bool.false_and]
  · exact cwGet_placeData_of_le d p hle

theorem length_tally (i : Nat) (acc : List Nat) : (tally i acc).length = acc.length := List.length_mapIdx

/-- Entry `k + 1` counts for group `k` (R117). -/
theorem getD_tally (i : Nat) {acc : List Nat} {k : Nat} (hk : k + 1 < acc.length) :
    (tally i acc).getD (k + 1) 0 = acc.getD (k + 1) 0 + (i.testBit k).toNat := by
  rw [List.getD_eq_getElem _ _ ((length_tally i acc).symm ▸ hk), List.getD_eq_getElem _ _ hk]
  cases hbit : i.testBit k <;> simp [tally, hbit]

theorem placeAt_acc (d : List Byte) (w : Placement) (i : Nat) :
    (placeAt d w i).acc = if isDataIndex i && dataBit d w.n then tally i w.acc else w.acc := by
  unfold placeAt isDataIndex
  split
  · next hpow => simp [hpow]
  · next hpow => split <;> simp [*]

theorem length_placeData_acc (d : List Byte) (p t : Nat) : (placeData d p t).acc.length = p := by
  induction t with
  | zero => exact List.length_replicate
  | succ t ih =>
    rw [placeData_succ, placeAt_acc]
    split
    · rw [length_tally, ih]
    · exact ih

/-- The walk counts a set data bit in each group of its index (R132). -/
theorem getD_placeAt_acc (d : List Byte) {w : Placement} {k : Nat} (hk : k + 1 < w.acc.length) (i : Nat) :
    (placeAt d w i).acc.getD (k + 1) 0 =
      w.acc.getD (k + 1) 0 + (isDataIndex i && i.testBit k && dataBit d w.n).toNat := by
  rw [placeAt_acc]
  split
  · next h =>
    obtain ⟨hdata, hbit⟩ := (Bool.and_eq_true _ _).mp h
    rw [getD_tally i hk, hdata, hbit, Bool.true_and, Bool.and_true]
  · next h =>
    rw [Bool.and_right_comm, Bool.eq_false_iff.mpr h, Bool.false_and]
    rfl

/-- R132: accumulator `k + 1` is the number of ones at the data indices of group `k`. -/
theorem getD_placeData_acc (d : List Byte) {p k : Nat} (hk : k + 2 ≤ p) (t : Nat) :
    (placeData d p t).acc.getD (k + 1) 0 = (groupIndices t k).countP (cwGet (placeData d p t).buf) := by
  induction t with
  | zero => simp [placeData, groupIndices, dataIndicesBelow]
  | succ t ih =>
    have hlen : k + 1 < (placeData d p t).acc.length := by rw [length_placeData_acc]; omega
    have hold : (groupIndices t k).countP (cwGet (placeData d p (t + 1)).buf) =
        (groupIndices t k).countP (cwGet (placeData d p t).buf) :=
      List.countP_congr fun i hi => by
        rw [placeData_succ, cwGet_placeAt_of_ne d (placeData_wf d p t) (Nat.ne_of_lt (mem_groupIndices.mp hi).1)]
    rw [countP_groupIndices_succ, hold, ← ih, cwGet_placeData d p (Nat.lt_succ_self t), ← placeData_n d p t,
      placeData_succ, getD_placeAt_acc d hlen]
    cases isDataIndex t <;> rfl

theorem getD_placeData_acc_odd (d : List Byte) {p k : Nat} (hk : k + 2 ≤ p) (t : Nat) :
    decide ((placeData d p t).acc.getD (k + 1) 0 % 2 = 1) = groupParity (placeData d p t).buf t k := by
  rw [getD_placeData_acc d hk, countP_cwGet_odd, groupParity]

/-! ## Steps 4 and 5: the parity bits and the master bit (R130, R133) -/

theorem cwGet_placeParityAt_self (acc : List Nat) {m : Memory} (hm : m.wf = true) {k : Nat}
    (hk : cwGet m (2 ^ k) = false) :
    cwGet (placeParityAt acc m k) (2 ^ k) = decide (acc.getD (k + 1) 0 % 2 = 1) := by
  unfold placeParityAt
  split
  · next hodd => rw [cwGet_cwSet hm, if_pos rfl, decide_eq_true hodd]
  · next heven => rw [hk, decide_eq_false heven]

/-- Each parity bit is written once, so it holds what its own step writes. -/
theorem cwGet_placeParityAt_foldl_self (acc : List Nat) {m : Memory} (hm : m.wf = true) {n k : Nat} (hkn : k < n)
    (hk : cwGet m (2 ^ k) = false) :
    cwGet ((List.range n).foldl (placeParityAt acc) m) (2 ^ k) = decide (acc.getD (k + 1) 0 % 2 = 1) := by
  have hne : ∀ {j l : Nat}, j ≠ l → 2 ^ j ≠ 2 ^ l := (Nat.pow_right_injective (Nat.le_refl 2)).ne
  have hwf : ∀ n, ((List.range n).foldl (placeParityAt acc) m).wf = true := fun n =>
    placeParityAt_foldl_wf acc (List.range n) hm
  induction n, hkn using Nat.le_induction with
  | base =>
    have hbefore : cwGet ((List.range k).foldl (placeParityAt acc) m) (2 ^ k) = false :=
      (cwGet_placeParityAt_foldl_of_ne acc hm fun l hl => hne (List.mem_range.mp hl).ne').trans hk
    rw [List.range_succ, List.foldl_append]
    exact cwGet_placeParityAt_self acc (hwf k) hbefore
  | succ n hn ih =>
    rw [List.range_succ, List.foldl_append]
    exact (cwGet_placeParityAt_of_ne acc (hwf n) (hne (Nat.ne_of_lt hn))).trans ih

theorem cwGet_placeParity_two_pow {p : Nat} {w : Placement} (hw : w.buf.wf = true) {k : Nat} (hk : k + 2 ≤ p)
    (hzero : cwGet w.buf (2 ^ k) = false) :
    cwGet (placeParity p w) (2 ^ k) = decide (w.acc.getD (k + 1) 0 % 2 = 1) :=
  cwGet_placeParityAt_foldl_self w.acc hw (by omega) hzero

theorem cwGet_placeMaster_zero (t : Nat) {m : Memory} (hm : m.wf = true) (hzero : cwGet m 0 = false) :
    cwGet (placeMaster t m) 0 = restParity m t := by
  rw [restParity, ← countP_cwGet_odd]
  unfold placeMaster
  split
  · next hodd => rw [cwGet_cwSet hm, if_pos rfl, decide_eq_true hodd]
  · next heven => rw [hzero, decide_eq_false heven]

/-! ## The codeword of ENCODE (R134, R135) -/

/-- Steps 4 and 5 leave the data indices as step 3 wrote them. -/
theorem cwGet_buildCodeword_of_isDataIndex (d : List Byte) (dbits : Nat) {i : Nat} (hi : isDataIndex i = true) :
    cwGet (buildCodeword d dbits) i = cwGet (placeData d (parityCount dbits) (totalCount dbits)).buf i := by
  have hwf := placeData_wf d (parityCount dbits) (totalCount dbits)
  obtain ⟨hzero, hpow⟩ := isDataIndex_iff.mp hi
  rw [buildCodeword, cwGet_placeMaster_of_ne _ (placeParity_wf _ hwf) hzero,
    cwGet_placeParity_of_ne hwf fun k _ => hpow k]

theorem pos_lt_totalCount {dbits n : Nat} (hwell : wellSized dbits = true) (hn : n < dbits) :
    pos n < totalCount dbits := by
  have hmem : pos n ∈ dataIndicesBelow (totalCount dbits) := by
    rw [dataIndicesAreThePositions dbits hwell]
    exact List.mem_map_of_mem (List.mem_range.mpr hn)
  exact (mem_dataIndicesBelow.mp hmem).1

/-- Every data index of a codeword is the place of one of its data bits (R43, R114). -/
theorem exists_pos_of_isDataIndex {dbits i : Nat} (hwell : wellSized dbits = true) (hi : i < totalCount dbits)
    (hdata : isDataIndex i = true) : ∃ n, n < dbits ∧ pos n = i := by
  have hmem := mem_dataIndicesBelow.mpr ⟨hi, hdata⟩
  rw [dataIndicesAreThePositions dbits hwell] at hmem
  obtain ⟨n, hn, hpos⟩ := List.mem_map.mp hmem
  exact ⟨n, List.mem_range.mp hn, hpos⟩

/-- R130: data bit `n` stands at `pos(n)`. -/
theorem cwGet_buildCodeword_pos (d : List Byte) {dbits n : Nat} (hwell : wellSized dbits = true) (hn : n < dbits) :
    cwGet (buildCodeword d dbits) (pos n) = dataBit d n := by
  obtain ⟨hdata, hcount⟩ := pos_spec n
  rw [cwGet_buildCodeword_of_isDataIndex d dbits hdata, cwGet_placeData d _ (pos_lt_totalCount hwell hn), hdata, hcount,
    Bool.true_and]

/-- R134: step 3 counts the groups at data indices, which steps 4 and 5 do not write, and step 5 counts the ones at all
indices but 0, the only one it writes; so the parities written are those of the finished codeword. -/
theorem buildCodeword_consistent (d : List Byte) {dbits : Nat} (hd : 1 ≤ dbits) :
    Consistent (buildCodeword d dbits) dbits where
  groups := fun k hk => by
    have hwf := placeData_wf d (parityCount dbits) (totalCount dbits)
    rw [groupParity_congr (fun i _ hi => cwGet_buildCodeword_of_isDataIndex d dbits hi) k,
      ← getD_placeData_acc_odd d hk, buildCodeword,
      cwGet_placeMaster_of_ne _ (placeParity_wf _ hwf) (Nat.two_pow_pos k).ne',
      cwGet_placeParity_two_pow hwf hk (cwGet_placeData_of_reserved d _ _ (isDataIndex_two_pow k))]
  master := by
    have hwf := placeData_wf d (parityCount dbits) (totalCount dbits)
    have hparity := placeParity_wf (parityCount dbits) hwf
    have hzero := cwGet_placeData_of_reserved d (parityCount dbits) (totalCount dbits) isDataIndex_zero
    rw [← cwGet_placeParity_of_ne (p := parityCount dbits) hwf fun k _ => (Nat.two_pow_pos k).ne] at hzero
    rw [buildCodeword, cwGet_placeMaster_zero _ hparity hzero]
    exact restParity_congr _ fun i hi => (cwGet_placeMaster_of_ne _ hparity hi).symm
  padding := fun _ hi => cwGet_buildCodeword_of_le d hd hi

theorem CommitsEncoding.cwGet_pos {s t : State} {len n : Nat} (h : CommitsEncoding s t len) (hn : n < 8 * len) :
    cwGet t.cw (pos n) = dataBit s.din n := by
  obtain ⟨-, -, hwell⟩ := h.admitted
  rw [h.cw, cwGet_buildCodeword_pos s.din hwell hn]

theorem CommitsEncoding.consistent {s t : State} {len : Nat} (h : CommitsEncoding s t len)
    (hc : s.config.Admissible) : t.Consistent := by
  obtain ⟨hpos, -, -⟩ := h.admitted
  rw [State.Consistent, h.cw, h.dbc_toNat hc]
  exact buildCodeword_consistent s.din (by omega)

/-- Settles O36: an admitted length commits the codeword of `buildCodeword`, which has the data bits at their places and
is consistent, and its bit count fits DBC. -/
theorem encodeBuildsTheConsistentCodeword : Obligations.EncodeBuildsTheConsistentCodeword := by
  intro s len hc hlen
  have hcommit : CommitsEncoding s (((s.setCw (buildCodeword s.din (8 * len))).setDbc
      (BitVec.ofNat 12 (8 * len))).addResponse (plainResponse s.config)) len := ⟨hlen, rfl, rfl, rfl⟩
  exact ⟨_, execEncode_of_admitted hlen, hcommit.dbc_toNat hc, fun _ => hcommit.cwGet_pos, hcommit.consistent hc,
    (hcommit.inv hc).canonical, rfl, ⟨rfl, rfl, rfl⟩, rfl⟩

/-! ## Uniqueness (R135) -/

/-- Off the master bit, consistent codewords with the same data bits agree: a parity bit is a parity of data bits, and
what is neither data nor parity is padding. -/
theorem Consistent.cwGet_eq_of_ne_zero {m c : Memory} {d : Nat} (hwell : wellSized d = true) (hm : Consistent m d)
    (hc : Consistent c d) (hdata : ∀ n, n < d → cwGet m (pos n) = cwGet c (pos n)) {i : Nat} (hi : i ≠ 0) :
    cwGet m i = cwGet c i := by
  have hbits : ∀ j, j < totalCount d → isDataIndex j = true → cwGet m j = cwGet c j := fun j hj hdj => by
    obtain ⟨n, hn, rfl⟩ := exists_pos_of_isDataIndex hwell hj hdj
    exact hdata n hn
  obtain hlt | hle := Nat.lt_or_ge i (totalCount d)
  · cases hpow : isPowerOfTwo i with
    | false => exact hbits i hlt (by rw [isDataIndex, hpow, Bool.not_false])
    | true =>
      obtain ⟨k, rfl⟩ := (isPowerOfTwo_iff.mp hpow).resolve_left hi
      have hk := (two_pow_lt_totalCount_iff (one_le_of_wellSized hwell) hwell).mp hlt
      rw [hm.groups k hk, hc.groups k hk, groupParity_congr hbits]
  · rw [hm.padding i hle, hc.padding i hle]

/-- Settles O37: the master bit is the parity of the other bits, on which the two agree, and equal bits make equal
canonical buffers. -/
theorem consistentCodewordIsUnique : Obligations.ConsistentCodewordIsUnique := by
  intro m c d hwell hmwf hcwf hm hc hdata
  have hrest : ∀ i, i ≠ 0 → cwGet m i = cwGet c i := fun _ => hm.cwGet_eq_of_ne_zero hwell hc hdata
  refine Memory.eq_of_cwGet_eq hmwf hcwf fun i => ?_
  obtain rfl | hi := Nat.eq_zero_or_pos i
  · rw [hm.master, hc.master, restParity_congr _ hrest]
  · exact hrest i hi.ne'

/-! ## The rejected lengths (R131) -/

/-- Settles O38: each of the three causes makes the length one that is not admitted. -/
theorem encodeRejectsInadmissibleLengths : Obligations.EncodeRejectsInadmissibleLengths := by
  intro s len hcause
  refine execEncode_of_not_admitted ?_
  rintro ⟨hpos, hmax, hwell⟩
  obtain rfl | hlong | hill := hcause
  · exact Nat.not_lt_zero 0 hpos
  · exact Nat.not_lt.mpr hmax hlong
  · exact Bool.noConfusion (hwell.symm.trans hill)

end Sys2Proof.Machine
end

section
/-! PROOFS. The syndrome (R140 to R142): its bits, the codewords of which it is zero, and the law of the code, by which
the syndromes of two codewords differ by the XOR of the indices at which the codewords differ. -/

namespace Sys2Proof.Machine

/-! ## The bits of the syndrome (R140) -/

theorem disagreement_eq_two_pow_mul (m : Memory) (t k : Nat) :
    disagreement m t k = 2 ^ k * (cwGet m (2 ^ k) ^^ groupParity m t k).toNat := by
  unfold disagreement
  cases cwGet m (2 ^ k) <;> cases groupParity m t k <;> simp

theorem syndrome_succ (m : Memory) (n t : Nat) :
    syndrome m (n + 2) t = disagreement m t n + syndrome m (n + 1) t := by
  simp [syndrome, List.range_succ, Nat.add_comm]

/-- One parity index more puts its disagreement above the bits of the others. -/
theorem testBit_syndrome_succ (m : Memory) (n t k : Nat) :
    (syndrome m (n + 2) t).testBit k =
      if k < n then (syndrome m (n + 1) t).testBit k
      else (cwGet m (2 ^ n) ^^ groupParity m t n).toNat.testBit (k - n) := by
  have hlow : syndrome m (n + 1) t < 2 ^ n := syndrome_lt_two_pow m (n + 1) t
  rw [syndrome_succ, disagreement_eq_two_pow_mul, Nat.testBit_two_pow_mul_add _ hlow]

theorem testBit_syndrome (m : Memory) {p k : Nat} (t : Nat) (hk : k + 2 ≤ p) :
    (syndrome m p t).testBit k = (cwGet m (2 ^ k) ^^ groupParity m t k) := by
  induction p, hk using Nat.le_induction with
  | base => rw [testBit_syndrome_succ, if_neg (Nat.lt_irrefl k), Nat.sub_self, Nat.testBit_bool_toNat]; rfl
  | succ p hkp ih =>
    obtain ⟨n, rfl⟩ := Nat.exists_eq_add_of_le' (show 1 ≤ p by omega)
    rw [testBit_syndrome_succ, if_pos (by omega), ih]

/-- Settles O34: the disagreeing parity indices are distinct powers of two, so none carries into another's bit. -/
theorem syndromeBitsAreTheDisagreements : Obligations.SyndromeBitsAreTheDisagreements :=
  fun m p t => ⟨syndrome_lt_two_pow m p t, fun _ hk => testBit_syndrome m t hk⟩

/-! ## The consistent codewords are those of syndrome zero and even parity (R134) -/

theorem syndrome_eq_zero_iff {m : Memory} {p t : Nat} :
    syndrome m p t = 0 ↔ ∀ k, k + 2 ≤ p → cwGet m (2 ^ k) = groupParity m t k := by
  constructor
  · intro hzero k hk
    have hbit := testBit_syndrome m t hk
    rw [hzero, Nat.zero_testBit] at hbit
    exact bne_eq_false_iff_eq.mp hbit.symm
  · intro hagree
    refine List.sum_eq_zero_iff.mpr fun x hx => ?_
    obtain ⟨k, hk, rfl⟩ := List.mem_map.mp hx
    have hkp : k + 2 ≤ p := by have := List.mem_range.mp hk; omega
    rw [disagreement_eq_two_pow_mul, hagree k hkp, Bool.xor_self, Bool.toNat_false, Nat.mul_zero]

theorem consistent_iff {m : Memory} {d : Nat} (hd : 1 ≤ d) :
    Consistent m d ↔ syndrome m (parityCount d) (totalCount d) = 0 ∧ overallEven m (totalCount d) = true ∧
      ∀ i, totalCount d ≤ i → cwGet m i = false := by
  rw [syndrome_eq_zero_iff, overallEvenComparesTheMasterBit m _ (totalCount_pos hd)]
  exact ⟨fun ⟨hgroups, hmaster, hpadding⟩ => ⟨hgroups, hmaster, hpadding⟩,
    fun ⟨hgroups, hmaster, hpadding⟩ => ⟨hgroups, hmaster, hpadding⟩⟩

/-! ## The damage, one index at a time (R142) -/

theorem xorIndices_append (is js : List Nat) : xorIndices (is ++ js) = xorIndices is ^^^ xorIndices js := by
  induction is with
  | nil => exact (Nat.zero_xor _).symm
  | cons i is ih => simp only [List.cons_append, xorIndices, ih, Nat.xor_assoc]

theorem damage_succ (m c : Memory) (t : Nat) :
    damage m c (t + 1) = damage m c t ++ if (cwGet m t ^^ cwGet c t) = true then [t] else [] := by
  simp [damage, List.range_succ, List.filter_singleton]

theorem length_damage_succ (m c : Memory) (t : Nat) :
    (damage m c (t + 1)).length = (damage m c t).length + (cwGet m t ^^ cwGet c t).toNat := by
  rw [damage_succ, List.length_append]
  cases cwGet m t ^^ cwGet c t <;> rfl

theorem decide_add_toNat_odd (n : Nat) (b : Bool) :
    decide ((n + b.toNat) % 2 = 1) = (decide (n % 2 = 1) ^^ b) := by
  cases b with
  | false => simp
  | true => obtain h | h := Nat.mod_two_eq_zero_or_one n <;> simp [h, Nat.add_mod]

theorem testBit_xorIndices_damage_succ (m c : Memory) (t k : Nat) :
    (xorIndices (damage m c (t + 1))).testBit k =
      ((xorIndices (damage m c t)).testBit k ^^ (t.testBit k && (cwGet m t ^^ cwGet c t))) := by
  rw [damage_succ, xorIndices_append, Nat.testBit_xor]
  cases cwGet m t ^^ cwGet c t <;> simp [xorIndices]

theorem groupParity_succ (m : Memory) (t k : Nat) :
    groupParity m (t + 1) k = (groupParity m t k ^^ (isDataIndex t && t.testBit k && cwGet m t)) := by
  have hgroup : groupIndices (t + 1) k =
      groupIndices t k ++ if (isDataIndex t && t.testBit k) = true then [t] else [] := by
    cases h : isDataIndex t <;> simp [groupIndices, dataIndicesBelow, List.range_succ, List.filter_singleton, h]
  rw [groupParity, hgroup, xorBits_append, groupParity]
  cases isDataIndex t && t.testBit k <;> simp

theorem overallEven_succ (m : Memory) (t : Nat) : overallEven m (t + 1) = (overallEven m t ^^ cwGet m t) := by
  rw [overallEven, List.range_succ, xorBits_append, xorBits_cons, xorBits_nil, Bool.xor_false, ← Bool.not_xor,
    overallEven]

/-- An index with bit `k` set is the parity index of group `k` or a data index in it (R118). -/
theorem testBit_eq_xor (i k : Nat) : i.testBit k = (decide (i = 2 ^ k) ^^ (isDataIndex i && i.testBit k)) := by
  cases hdata : isDataIndex i with
  | true =>
    obtain ⟨-, hpow⟩ := isDataIndex_iff.mp hdata
    simp [hpow k]
  | false =>
    have hreserved : isPowerOfTwo i = true := by simpa [isDataIndex] using hdata
    obtain rfl | ⟨j, rfl⟩ := isPowerOfTwo_iff.mp hreserved
    · simp [(Nat.two_pow_pos k).ne]
    · simp [Nat.testBit_two_pow]

/-- Below any bound, the damaged indices with bit `k` set are those that move group `k` and its parity index. -/
theorem testBit_xorIndices_damage (m c : Memory) (t k : Nat) :
    (xorIndices (damage m c t)).testBit k =
      (groupParity m t k ^^ groupParity c t k ^^ (decide (2 ^ k < t) && (cwGet m (2 ^ k) ^^ cwGet c (2 ^ k)))) := by
  induction t with
  | zero => simp [damage, xorIndices, groupParity, groupIndices, dataIndicesBelow]
  | succ t ih =>
    rw [testBit_xorIndices_damage_succ, ih, groupParity_succ, groupParity_succ]
    by_cases ht : t = 2 ^ k
    · subst ht
      simp [isDataIndex_two_pow]
    · have hlt : 2 ^ k < t + 1 ↔ 2 ^ k < t := by omega
      have hbit : t.testBit k = (isDataIndex t && t.testBit k) := by
        conv_lhs => rw [testBit_eq_xor, decide_eq_false ht, Bool.false_xor]
      simp only [← hbit, hlt]
      simp [Bool.and_xor_distrib_left, Bool.xor_comm, Bool.xor_left_comm]

/-- The overall parities of two codewords differ when the damage is odd. -/
theorem overallEven_eq_xor_damage (m c : Memory) (t : Nat) :
    overallEven m t = (overallEven c t ^^ decide ((damage m c t).length % 2 = 1)) := by
  induction t with
  | zero => rfl
  | succ t ih =>
    rw [overallEven_succ, overallEven_succ, ih, length_damage_succ, decide_add_toNat_odd]
    simp [Bool.xor_comm, Bool.xor_left_comm]

/-! ## The law of the code (R142) -/

/-- No data index below T belongs to a group numbered above `P - 2`. -/
theorem groupParity_of_lt {d k : Nat} (hwell : wellSized d = true) (hk : parityCount d < k + 2) (m : Memory) :
    groupParity m (totalCount d) k = false := by
  have hnone : groupIndices (totalCount d) k = [] := List.eq_nil_iff_forall_not_mem.mpr fun i hi => by
    obtain ⟨hlt, -, hbit⟩ := mem_groupIndices.mp hi
    exact Nat.not_lt.mpr (le_parityCount_of_testBit hwell hlt hbit) hk
  rw [groupParity, hnone, xorBits_nil]

/-- R142 between any two codewords of one well-sized data-bit count. -/
theorem syndrome_eq_xor_damage {d : Nat} (hwell : wellSized d = true) (m c : Memory) :
    syndrome m (parityCount d) (totalCount d) =
      syndrome c (parityCount d) (totalCount d) ^^^ xorIndices (damage m c (totalCount d)) := by
  refine Nat.eq_of_testBit_eq fun k => ?_
  have hpow := two_pow_lt_totalCount_iff (k := k) (one_le_of_wellSized hwell) hwell
  rw [Nat.testBit_xor, testBit_xorIndices_damage]
  obtain hk | hk := Nat.lt_or_ge (parityCount d) (k + 2)
  · have hhigh : ∀ b : Memory, (syndrome b (parityCount d) (totalCount d)).testBit k = false := fun b =>
      Nat.testBit_lt_two_pow ((syndrome_lt_two_pow b _ _).trans_le (Nat.pow_le_pow_right (by decide) (by omega)))
    simp [hhigh, groupParity_of_lt hwell hk, decide_eq_false (mt hpow.mp (Nat.not_le.mpr hk))]
  · rw [testBit_syndrome m _ hk, testBit_syndrome c _ hk, decide_eq_true (hpow.mpr hk), Bool.true_and]
    simp [Bool.xor_comm, Bool.xor_left_comm]

/-- Settles O35: a consistent codeword has syndrome zero and even parity, so the damage alone is left. -/
theorem syndromeIsTheXorOfTheDamage : Obligations.SyndromeIsTheXorOfTheDamage := by
  intro m c d hwell hc
  obtain ⟨hsyn, heven, -⟩ := (consistent_iff (one_le_of_wellSized hwell)).mp hc
  rw [syndrome_eq_xor_damage hwell m c, overallEven_eq_xor_damage m c, hsyn, heven, Nat.zero_xor, Bool.true_xor]
  exact ⟨rfl, by simp⟩

/-! ## One flip (R122) -/

theorem damage_flipBit {m : Memory} (hm : m.wf = true) {t i : Nat} (hi : i < t) : damage (flipBit m i) m t = [i] := by
  have hdiff : (fun j => cwGet (flipBit m i) j != cwGet m j) = (· == i) := funext fun j => by
    rw [cwGet_flipBit hm]
    by_cases h : j = i <;> simp [h]
  rw [damage, hdiff, List.filter_beq, List.count_eq_one_of_mem List.nodup_range (List.mem_range.mpr hi),
    List.replicate_one]

/-- A flip of a valid bit moves the syndrome by its index. -/
theorem syndrome_flipBit {d : Nat} (hwell : wellSized d = true) {m : Memory} (hm : m.wf = true) {i : Nat}
    (hi : i < totalCount d) :
    syndrome (flipBit m i) (parityCount d) (totalCount d) = syndrome m (parityCount d) (totalCount d) ^^^ i := by
  rw [syndrome_eq_xor_damage hwell (flipBit m i) m, damage_flipBit hm hi, xorIndices, xorIndices, Nat.xor_zero]

end Sys2Proof.Machine
end

section
/-! PROOFS. What DIAG makes of flipped bits (R151 to R156): a flip moves the syndrome by its index and toggles the
overall parity, so the row of the decision table is known after one, two and three flips; and a DIAG either leaves a
consistent codeword or repeats its answer. -/

namespace Sys2Proof.Machine

/-! ## The block of a held codeword after a toggled bit -/

theorem State.Holds.of_sameBlock {s t : State} (h : s.Holds) (hst : sameBlock s t) : t.Holds :=
  ⟨h.inv.of_sameBlock hst, by obtain ⟨-, -, hdbc⟩ := hst; exact hdbc ▸ h.nonempty⟩

theorem State.Holds.of_togglesBit {s t : State} {i : Nat} (h : s.Holds) (hst : TogglesBit s t i) : t.Holds :=
  ⟨h.inv.of_togglesBit hst, hst.dbc ▸ h.nonempty⟩

theorem State.Holds.consistent_iff {s : State} (h : s.Holds) :
    s.Consistent ↔ s.syndrome = 0 ∧ s.even = true := by
  obtain ⟨hpos, -⟩ := h.wellSized_dbc
  rw [State.Consistent, Machine.consistent_iff hpos]
  exact ⟨fun ⟨hsyn, heven, _⟩ => ⟨hsyn, heven⟩, fun ⟨hsyn, heven⟩ => ⟨hsyn, heven, h.inv.padding⟩⟩

theorem togglesBit_setCw {s : State} {i : Nat} (hi : i < s.total) (r : Response) :
    TogglesBit s ((s.setCw (flipBit s.cw i)).addResponse r) i := ⟨hi, rfl, rfl, rfl⟩

section
variable {s t : State} {i : Nat}

theorem TogglesBit.total (h : TogglesBit s t i) : t.total = s.total := by
  rw [State.total, State.total, h.dbc]

theorem TogglesBit.syndrome (h : TogglesBit s t i) (hs : s.Holds) : t.syndrome = s.syndrome ^^^ i := by
  obtain ⟨-, hwell⟩ := hs.wellSized_dbc
  rw [State.syndrome, State.parity, State.total, h.dbc, h.cw]
  exact syndrome_flipBit hwell hs.inv.canonical h.valid

theorem TogglesBit.even (h : TogglesBit s t i) (hs : s.Holds) : t.even = !s.even := by
  rw [State.even, h.total, h.cw]
  exact overallEven_flipBit hs.inv.canonical h.valid

theorem TogglesBit.cwGet (h : TogglesBit s t i) (hs : s.Holds) (j : Nat) :
    cwGet t.cw j = (cwGet s.cw j ^^ decide (i = j)) := by
  rw [h.cw, cwGet_flipBit_eq_xor hs.inv.canonical]

end

/-- `t` holds a codeword of the size that `s` holds, and a DIAG of it finds this syndrome and overall parity. -/
structure DiagFinds (s t : State) (syn : Nat) (even : Bool) : Prop where
  holds : t.Holds
  config : t.config = s.config
  total : t.total = s.total
  syndrome : t.syndrome = syn
  even : t.even = even

theorem State.Holds.diagFinds_self {s : State} (hs : s.Holds) (hc : s.Consistent) : DiagFinds s s 0 true := by
  obtain ⟨hsyn, heven⟩ := hs.consistent_iff.mp hc
  exact ⟨hs, rfl, rfl, hsyn, heven⟩

/-- One more FLIP of a valid bit moves the syndrome by its index and toggles the parity (R122). -/
theorem DiagFinds.exec_flip {s t : State} {syn : Nat} {even : Bool} (h : DiagFinds s t syn even) {i : Nat}
    (hi : i < s.total) :
    ∃ u, exec (.flip i) t = .next u ∧ TogglesBit t u i ∧ DiagFinds s u (syn ^^^ i) (!even) := by
  have hlt : i < t.total := h.total ▸ hi
  have hu := togglesBit_setCw hlt (plainResponse t.config)
  exact ⟨_, execFlip_of_lt h.holds.nonempty h.holds.inv.fits hlt, hu, h.holds.of_togglesBit hu, h.config, h.total,
    by rw [hu.syndrome h.holds, h.syndrome], by rw [hu.even h.holds, h.even]⟩

/-! ## DIAG when the parity is odd (R145 to R148) -/

theorem classify_odd_ne (syn : Nat) : classify syn false ≠ .multiBitError ∧ classify syn false ≠ .noError := by
  unfold classify
  split
  · exact ⟨by decide, by decide⟩
  · cases isPowerOfTwo syn <;> exact ⟨by decide, by decide⟩

theorem classify_eq_noError {syn : Nat} {even : Bool} (h : classify syn even = .noError) : syn = 0 ∧ even = true := by
  cases even with
  | false => exact absurd h (classify_odd_ne syn).2
  | true =>
    by_contra hne
    have hsyn : syn ≠ 0 := fun hzero => hne ⟨hzero, rfl⟩
    rw [classify_even hsyn] at h
    cases h

/-- CORRECTED is bit 12 of the report word (R72). -/
theorem getLsbD_reportWord (st : Status) (syn : Nat) : (reportWord st syn).getLsbD 12 = st.corrected := by
  rw [reportWord, BitVec.getLsbD_append]
  cases st <;> rfl

theorem Status.corrected_of_ne {st : Status} (h : st ≠ .multiBitError) : st.corrected = true := by
  cases st with
  | multiBitError => exact absurd rfl h
  | noError | masterParityBitError | parityBitError | dataBitError => rfl

/-- An odd parity with a syndrome below T is corrected, and reported with the status of the syndrome. -/
theorem State.Holds.exec_diag_of_odd_of_lt {s : State} (hs : s.Holds) (heven : s.even = false)
    (hsyn : s.syndrome < s.total) :
    exec .diag s = .next ((s.setCw (flipBit s.cw s.syndrome)).addResponse
      (reportResponse s.config (classify s.syndrome false) s.syndrome)) := by
  obtain ⟨hmulti, hnone⟩ := classify_odd_ne s.syndrome
  refine hs.execDiag.trans ?_
  rw [heven, correct_of_lt hmulti hnone hsyn, respond]

/-- An odd parity with a syndrome from T up faults (R148). -/
theorem State.Holds.exec_diag_of_odd_of_le {s : State} (hs : s.Holds) (heven : s.even = false)
    (hsyn : s.total ≤ s.syndrome) :
    exec .diag s = .next (s.addResponse (faultResponse s.config .indexOutOfRange)) := by
  obtain ⟨hmulti, hnone⟩ := classify_odd_ne s.syndrome
  refine hs.execDiag.trans ?_
  rw [heven, correct_of_le hmulti hnone hsyn, raise, respond]

/-- The report table of R152. -/
theorem reportWord_classify_odd {i : Nat} (hi : i < 4096) :
    reportWord (classify i false) i =
      if i = 0 then 0x3000 else if isPowerOfTwo i then 0x5000 + BitVec.ofNat 16 i else 0x7000 + BitVec.ofNat 16 i := by
  rw [reportWord_eq_add _ hi, classify]
  by_cases hzero : i = 0
  · subst hzero
    rfl
  · cases isPowerOfTwo i <;> simp only [hzero, if_false, if_true, Bool.false_eq_true] <;> rfl

/-- R156: toggling the bit at the syndrome, when the parity is odd, leaves syndrome 0 and even parity. -/
theorem TogglesBit.consistent {s t : State} (h : TogglesBit s t s.syndrome) (hs : s.Holds) (heven : s.even = false) :
    t.Consistent := by
  rw [(hs.of_togglesBit h).consistent_iff, h.syndrome hs, h.even hs, heven]
  exact ⟨Nat.xor_self _, rfl⟩

/-! ## No flip and one flip (R151, R152) -/

/-- Settles O43: a consistent codeword is in the first row of the decision table. -/
theorem diagOfAConsistentCodewordIsNoError : Obligations.DiagOfAConsistentCodewordIsNoError := by
  intro s hs hc
  obtain ⟨hsyn, heven⟩ := hs.consistent_iff.mp hc
  obtain ⟨hrow, -⟩ := diagFollowsTheDecisionTable s hs
  exact hrow hsyn heven

/-- Settles O44: the syndrome is the flipped index and the parity odd, so DIAG toggles the same bit again. -/
theorem diagRepairsEverySingleFlip : Obligations.DiagRepairsEverySingleFlip := by
  intro s i hs hc hi
  obtain ⟨t, hflip, htoggle, ht⟩ := (hs.diagFinds_self hc).exec_flip hi
  have hsyn : t.syndrome = i := ht.syndrome.trans (Nat.zero_xor i)
  have hdiag := ht.holds.exec_diag_of_odd_of_lt ht.even (by rwa [hsyn, ht.total])
  refine ⟨t, _, hflip, hdiag, ?_, htoggle.dbc, ?_⟩
  · rw [State.addResponse_cw, State.setCw_cw, hsyn, htoggle.cw, flipBit_flipBit hs.inv.canonical]
  · rw [State.addResponse_responses, State.setCw_responses, reportResponse, hsyn,
      reportWord_classify_odd (hsyn ▸ ht.holds.inv.syndrome_lt), zeroDout, ht.config]

/-! ## Two and three flips (R153, R154) -/

/-- Settles O45: two flips leave the parity even, and the syndrome of two distinct indices is not zero. -/
theorem diagDetectsEveryDoubleFlip : Obligations.DiagDetectsEveryDoubleFlip := by
  intro s i j hs hc hi hj hij
  obtain ⟨t, hflipi, -, ht⟩ := (hs.diagFinds_self hc).exec_flip hi
  obtain ⟨u, hflipj, -, hu⟩ := ht.exec_flip hj
  have hsyn : u.syndrome = i ^^^ j := by rw [hu.syndrome, Nat.zero_xor]
  have hne : u.syndrome ≠ 0 := hsyn ▸ mt Nat.xor_eq_zero_iff.mp hij
  obtain ⟨-, -, hrow, -⟩ := diagFollowsTheDecisionTable u hu.holds
  exact ⟨t, u, _, hflipi, hflipj, hrow hne hu.even, rfl, rfl, by rw [hsyn, hu.config]⟩

theorem ne_xor_of_ne {i j k : Nat} (h : j ≠ k) : i ≠ i ^^^ j ^^^ k := fun heq => by
  have hzero : j ^^^ k = 0 := by simpa [Nat.xor_assoc] using congrArg (i ^^^ ·) heq.symm
  exact h (Nat.xor_eq_zero_iff.mp hzero)

/-- DIAG cannot repair a bit that its syndrome does not name. -/
theorem State.Holds.exec_diag_cw_ne {s t : State} (hs : s.Holds) (h : exec .diag s = .next t) {i : Nat} {m : Memory}
    (hi : i ≠ s.syndrome) (hbit : cwGet s.cw i = !cwGet m i) : t.cw ≠ m := by
  rintro rfl
  obtain ⟨-, hbits, -⟩ := diagFrame s t hs.inv.canonical h
  exact (Bool.not_eq_self _).mp (hbit.symm.trans (hbits i hi).symm)

/-- Settles O46: the XOR of three distinct indices is none of them, so DIAG leaves bit `i` toggled; the parity is odd,
so it corrects when that XOR is a valid index and faults when it is not. -/
theorem diagNeverUndoesATripleFlip : Obligations.DiagNeverUndoesATripleFlip := by
  intro s i j k hs hc hi hj hk hij hik hjk
  obtain ⟨t, hflipi, htogglei, ht⟩ := (hs.diagFinds_self hc).exec_flip hi
  obtain ⟨u, hflipj, htogglej, hu⟩ := ht.exec_flip hj
  obtain ⟨v, hflipk, htogglek, hv⟩ := hu.exec_flip hk
  have hsyn : v.syndrome = i ^^^ j ^^^ k := by rw [hv.syndrome, Nat.zero_xor]
  have hbit : cwGet v.cw i = !cwGet s.cw i := by
    rw [htogglek.cwGet hu.holds, htogglej.cwGet ht.holds, htogglei.cwGet hs]
    simp [hij.symm, hik.symm]
  have hkept : ∀ x, exec .diag v = .next x → x.cw ≠ s.cw := fun x hx =>
    hv.holds.exec_diag_cw_ne hx (hsyn ▸ ne_xor_of_ne hjk) hbit
  rw [← hsyn, ← hv.total]
  obtain hlt | hle := Nat.lt_or_ge v.syndrome v.total
  · have hdiag := hv.holds.exec_diag_of_odd_of_lt hv.even hlt
    refine ⟨t, u, v, _, hflipi, hflipj, hflipk, hdiag, hkept _ hdiag, fun hle => absurd hlt (Nat.not_lt.mpr hle),
      fun _ => ⟨(togglesBit_setCw hlt _).consistent hv.holds hv.even, _, rfl, rfl, ?_⟩⟩
    rw [reportResponse, getLsbD_reportWord, Status.corrected_of_ne (classify_odd_ne _).1]
  · have hdiag := hv.holds.exec_diag_of_odd_of_le hv.even hle
    exact ⟨t, u, v, _, hflipi, hflipj, hflipk, hdiag, hkept _ hdiag,
      fun _ => ⟨rfl, by rw [← hv.config]; rfl⟩, fun hlt => absurd hlt (Nat.not_lt.mpr hle)⟩

/-! ## A second DIAG (R156) -/

/-- A command that only answers gives the same answer again: it does not read the responses (R28). -/
theorem exec_addResponse_of_exec {i : Instr} {s : State} {r : Response}
    (h : exec i s = .next (s.addResponse r)) : exec i (s.addResponse r) = .next ((s.addResponse r).addResponse r) := by
  obtain ⟨q, hq, hrepeat⟩ := exec_ignoresInterface i s _ (s.responses ++ [r]) s.pending s.cuts h
  obtain rfl : r = q := by simpa using hq
  exact hrepeat

/-- What a DIAG of a held codeword comes to: it reports CORRECTED on a consistent codeword, or it only answers. -/
theorem State.Holds.exec_diag_next {s t : State} (hs : s.Holds) (h : exec .diag s = .next t) :
    (t.Consistent ∧ ∃ st syn, t.responses = s.responses ++ [reportResponse s.config st syn] ∧ st.corrected = true) ∨
    ∃ r, t = s.addResponse r ∧ (r.fault ≠ 0 ∨ r.rpt.getLsbD 12 = false) := by
  obtain ⟨hempty, -⟩ | ⟨-, -, hcorrect⟩ := execDiag_next h
  · exact absurd hempty hs.nonempty
  · obtain ⟨hst, rfl⟩ | ⟨hst, rfl⟩ | ⟨-, -, -, rfl⟩ | ⟨hmulti, hnone, hsyn, rfl⟩ := correct_next hcorrect
    · exact .inr ⟨_, rfl, .inr (by rw [reportResponse, getLsbD_reportWord, hst]; rfl)⟩
    · exact .inl ⟨hs.consistent_iff.mpr (classify_eq_noError hst), _, _, rfl, by rw [hst]; rfl⟩
    · exact .inr ⟨_, rfl, .inl (show FaultKind.indexOutOfRange.code ≠ 0 by decide)⟩
    · have heven : s.even = false := classify_correcting hmulti hnone
      exact .inl ⟨(togglesBit_setCw hsyn _).consistent hs heven, _, _, rfl, Status.corrected_of_ne hmulti⟩

theorem State.Holds.of_exec_diag {s t : State} (hs : s.Holds) (h : exec .diag s = .next t) : t.Holds := by
  obtain hsame | htoggle := execDiag_block h
  · exact hs.of_sameBlock hsame
  · exact hs.of_togglesBit htoggle

/-- Settles O47: a DIAG that reports CORRECTED leaves a consistent codeword, of which a DIAG reports NoError; any other
only answers, and answers the same again. -/
theorem secondDiagConfirmsTheFirst : Obligations.SecondDiagConfirmsTheFirst := by
  intro s t r hs h hr
  obtain ⟨hc, st, syn, hreport, hst⟩ | ⟨q, rfl, hq⟩ := hs.exec_diag_next h
  · obtain rfl : r = reportResponse s.config st syn := by simpa using hr.symm.trans hreport
    have hbit : (reportResponse s.config st syn).rpt.getLsbD 12 = true := (getLsbD_reportWord st syn).trans hst
    obtain ⟨-, -, -, hconfig, -⟩ := diagFrame s t hs.inv.canonical h
    refine ⟨fun _ _ => ⟨hc, hconfig ▸ diagOfAConsistentCodewordIsNoError t (hs.of_exec_diag h) hc⟩, ?_⟩
    rintro (hfault | hbit')
    · exact absurd rfl hfault
    · exact Bool.noConfusion (hbit.symm.trans hbit')
  · obtain rfl : q = r := by simpa using hr
    refine ⟨fun hfault hbit => ?_, fun _ => ⟨rfl, exec_addResponse_of_exec h⟩⟩
    obtain hfault' | hbit' := hq
    · exact absurd hfault hfault'
    · exact Bool.noConfusion (hbit.symm.trans hbit')

end Sys2Proof.Machine
end

section
/-! PROOFS. DECODE (R160 to R163): the decoder's walk puts the bit at each data index into the next place of the output,
so data bit `n` of the response is the bit at `pos(n)`; and what ENCODE and FLIP make of that bit. -/

namespace Sys2Proof.Machine

/-! ## The decoder's walk (R160) -/

/-- The decoder's walk over the indices 0 to `t - 1`, from `len` zero bytes of output. -/
def extractWalk (m : Memory) (len t : Nat) : Extraction :=
  (List.range t).foldl (extractAt m) ⟨List.replicate len 0, 0⟩

theorem extractData_eq_extractWalk (m : Memory) (dbits : Nat) :
    extractData m dbits = (extractWalk m (dbits / 8) (totalCount dbits)).out := rfl

theorem extractWalk_succ (m : Memory) (len t : Nat) :
    extractWalk m len (t + 1) = extractAt m (extractWalk m len t) t := by
  rw [extractWalk, List.range_succ, List.foldl_append]
  rfl

theorem extractAt_n (m : Memory) (w : Extraction) (i : Nat) : (extractAt m w i).n = w.n + (isDataIndex i).toNat := by
  unfold extractAt isDataIndex
  split
  · next hi => simp [hi]
  · next hi => split <;> simp [hi]

/-- The walk copies as many data bits as it meets data indices. -/
theorem extractWalk_n (m : Memory) (len t : Nat) : (extractWalk m len t).n = (dataIndicesBelow t).length := by
  induction t with
  | zero => rfl
  | succ t ih => rw [extractWalk_succ, extractAt_n, ih, length_dataIndicesBelow_succ]

theorem extractWalk_length (m : Memory) (len t : Nat) : (extractWalk m len t).out.length = len := by
  induction t with
  | zero => exact List.length_replicate
  | succ t ih => rw [extractWalk_succ, extractAt_length, ih]

/-- Setting bit `k` of a byte sequence sets data bit `k` and no other. -/
theorem dataBit_modify_setBit (d : List Byte) (k : Nat) {n : Nat} (hn : n / 8 < d.length) :
    dataBit (d.modify (k / 8) fun b => setBit b (k % 8) 1) n = (dataBit d n || decide (n = k)) := by
  have hmod : n / 8 < (d.modify (k / 8) fun b => setBit b (k % 8) 1).length := by rwa [List.length_modify]
  rw [dataBit, dataBit, List.getD_eq_getElem _ _ hmod, List.getD_eq_getElem _ _ hn, List.getElem_modify]
  by_cases hbyte : k / 8 = n / 8
  · rw [if_pos hbyte]
    refine (getBit_setBit _ (Nat.mod_lt k (by decide)) (Nat.mod_lt n (by decide)) true).trans ?_
    have hbit : n % 8 = k % 8 ↔ n = k := by omega
    by_cases h : n = k <;> simp [hbit, h, getBit]
  · have hne : n ≠ k := fun h => hbyte (by rw [h])
    rw [if_neg hbyte, decide_eq_false hne, Bool.or_false]

/-- One index of the walk sets the next data bit when it is a data index that holds a 1. -/
theorem dataBit_extractAt (m : Memory) (w : Extraction) (i : Nat) {n : Nat} (hn : n / 8 < w.out.length) :
    dataBit (extractAt m w i).out n = (dataBit w.out n || (isDataIndex i && cwGet m i && decide (n = w.n))) := by
  unfold extractAt isDataIndex
  split
  · next hi => simp [hi]
  · next hi =>
    split
    · next hbit => simp [hi, hbit, dataBit_modify_setBit w.out w.n hn]
    · next hbit => simp [hbit]

/-- The walk has filled the places of the data indices it has passed, each with the bit at its index (R43). -/
theorem dataBit_extractWalk (m : Memory) {len n : Nat} (t : Nat) (hn : n / 8 < len) :
    dataBit (extractWalk m len t).out n = (decide (n < (dataIndicesBelow t).length) && cwGet m (pos n)) := by
  induction t with
  | zero => simp [extractWalk, dataBit, dataIndicesBelow, hn]
  | succ t ih =>
    rw [extractWalk_succ, dataBit_extractAt m _ t (by rwa [extractWalk_length]), ih, extractWalk_n,
      length_dataIndicesBelow_succ]
    cases hdata : isDataIndex t with
    | false => simp
    | true =>
      by_cases hlast : n = (dataIndicesBelow t).length
      · simp [hlast, pos_length_dataIndicesBelow hdata]
      · have hlt : n < (dataIndicesBelow t).length + 1 ↔ n < (dataIndicesBelow t).length := by omega
        simp [hlast, hlt]

/-- R160: data bit `n` of the extracted bytes is the bit at `pos(n)`. -/
theorem dataBit_extractData (m : Memory) {len n : Nat} (hwell : wellSized (8 * len) = true) (hn : n < 8 * len) :
    dataBit (extractData m (8 * len)) n = cwGet m (pos n) := by
  rw [extractData_eq_extractWalk, dataBit_extractWalk m _ (by omega), length_dataIndicesBelow_of_wellSized hwell,
    decide_eq_true hn, Bool.true_and]

/-- R163: the decoder reads data indices only. -/
theorem extractData_congr {m c : Memory} (h : ∀ i, isDataIndex i = true → cwGet m i = cwGet c i) (dbits : Nat) :
    extractData m dbits = extractData c dbits := by
  have hstep : extractAt m = extractAt c := funext fun w => funext fun i => by
    unfold extractAt
    split
    · rfl
    · next hi => rw [h i (by simpa [isDataIndex] using hi)]
  rw [extractData, hstep, extractData]

/-! ## The response (R75, R76) -/

theorem getD_eq_of_dataBit_eq {d e : List Byte} {k : Nat} (h : ∀ n, n / 8 = k → dataBit d n = dataBit e n) :
    d.getD k 0 = e.getD k 0 := by
  refine getBit_ext fun o ho => ?_
  have hbit := h (8 * k + o) (by omega)
  rw [dataBit, dataBit, show (8 * k + o) / 8 = k by omega, show (8 * k + o) % 8 = o by omega] at hbit
  exact hbit

/-- The lanes above the bytes are zero, as a byte that is not listed reads. -/
theorem getD_dataResponse (c : Config) (out : List Byte) (k : Nat) :
    (dataResponse c out).dout.getD k 0 = out.getD k 0 := by
  rw [dataResponse]
  obtain hlt | hle := Nat.lt_or_ge k out.length
  · exact List.getD_append _ _ _ _ hlt
  · rw [List.getD_append_right _ _ _ _ hle, List.getD_eq_default out _ hle]
    exact List.getElem?_getD_replicate_default_eq _ _ _

theorem dataBit_dataResponse (c : Config) (out : List Byte) (n : Nat) :
    dataBit (dataResponse c out).dout n = dataBit out n := by
  rw [dataBit, getD_dataResponse, dataBit]

theorem length_dataResponse {c : Config} {out : List Byte} (h : out.length ≤ c.maxDataBytes) :
    (dataResponse c out).dout.length = c.maxDataBytes := by
  rw [dataResponse, List.length_append, List.length_replicate, Nat.add_sub_of_le h]

/-- A byte count of an admissible build fits the 9 bits of DOUT_LEN (R76). -/
theorem doutLen_dataResponse {c : Config} {out : List Byte} (hc : c.Admissible) (h : out.length ≤ c.maxDataBytes) :
    (dataResponse c out).doutLen.toNat = out.length := by
  obtain ⟨-, hmax⟩ := hc
  rw [dataResponse, BitVec.toNat_ofNat, Nat.mod_eq_of_lt (by omega)]

/-! ## DECODE of a held codeword (R160) -/

/-- DBC of a held codeword counts the bits of an admitted length (R22). -/
theorem State.Holds.exists_admitted {s : State} (h : s.Holds) :
    ∃ len, Admitted s.config len ∧ s.dbc.toNat = 8 * len :=
  h.inv.dbc.resolve_left h.nonempty

/-- The response of DECODE. -/
abbrev State.decoded (s : State) : Response := dataResponse s.config (extractData s.cw s.dbc.toNat)

theorem State.Holds.exec_decode {s : State} (h : s.Holds) : exec .decode s = .next (s.addResponse s.decoded) :=
  needCodeword_of_fits h.nonempty h.inv.fits

theorem State.Holds.dataBit_decoded {s : State} (h : s.Holds) {n : Nat} (hn : n < s.dbc.toNat) :
    dataBit s.decoded.dout n = cwGet s.cw (pos n) := by
  obtain ⟨len, ⟨-, -, hwell⟩, hdbc⟩ := h.exists_admitted
  rw [hdbc] at hn
  rw [State.decoded, dataBit_dataResponse, hdbc, dataBit_extractData s.cw hwell hn]

/-- Settles O48: the walk's output has `DBC div 8` bytes, which fit DOUT, and its data bits are those at the data
indices. -/
theorem decodeReturnsTheDataBits : Obligations.DecodeReturnsTheDataBits := by
  intro s hs
  obtain ⟨len, ⟨-, hlen, -⟩, hdbc⟩ := hs.exists_admitted
  have hbytes := extractData_length s.cw s.dbc.toNat
  have hfit : (extractData s.cw s.dbc.toNat).length ≤ s.config.maxDataBytes := by omega
  refine ⟨_, s.decoded, hs.exec_decode, ⟨rfl, rfl, rfl⟩, ⟨rfl, rfl, rfl⟩, rfl, rfl, rfl,
    (doutLen_dataResponse hs.inv.config hfit).trans hbytes, length_dataResponse hfit, fun n => hs.dataBit_decoded,
    fun k hk => ?_⟩
  rw [getD_dataResponse, List.getD_eq_default _ _ (hbytes.trans_le hk)]

theorem execDecode_answersOnce {s t : State} (h : execDecode s = .next t) : AnswersOnce s t := by
  obtain ⟨-, rfl⟩ | ⟨-, -, rfl⟩ := execDecode_next h
  · exact answersOnce_addResponse s _
  · exact answersOnce_addResponse s _

/-- Settles O49: DECODE answers once, with data or with a fault, and writes nothing. -/
theorem decodeFrame : Obligations.DecodeFrame := by
  intro s t h
  obtain ⟨hhost, hresponse⟩ := execDecode_answersOnce h
  exact ⟨fun b => by rw [execDecode_cw h], execDecode_block h, hhost, hresponse⟩

/-! ## DECODE after ENCODE (R161, R162) -/

theorem commitsEncoding_of_admitted {s : State} {len : Nat} (h : Admitted s.config len) :
    ∃ t, exec (.encode len) s = .next t ∧ CommitsEncoding s t len :=
  ⟨_, execEncode_of_admitted h, h, rfl, rfl, rfl⟩

theorem CommitsEncoding.holds {s t : State} {len : Nat} (h : CommitsEncoding s t len) (hc : s.config.Admissible) :
    t.Holds := by
  refine ⟨h.inv hc, fun hzero => ?_⟩
  have hdbc : 0 = 8 * len := (congrArg BitVec.toNat hzero).symm.trans (h.dbc_toNat hc)
  obtain ⟨hpos, -, -⟩ := h.admitted
  omega

theorem CommitsEncoding.of_sameBlock {s t u : State} {len : Nat} (h : CommitsEncoding s t len)
    (htu : sameBlock t u) : CommitsEncoding s u len := by
  obtain ⟨hconfig, hcw, hdbc⟩ := htu
  exact ⟨h.admitted, hconfig.trans h.config, hcw.trans h.cw, hdbc.trans h.dbc⟩

/-- A block that holds the codeword of the bytes on DIN decodes to those bytes: they are equal bit by bit (R161). -/
theorem CommitsEncoding.exec_decode {s t : State} {len : Nat} (h : CommitsEncoding s t len)
    (hc : s.config.Admissible) :
    ∃ u r, exec .decode t = .next u ∧ u.responses = t.responses ++ [r] ∧ r.fault = 0 ∧ r.doutLen.toNat = len ∧
      r.dout.length = s.config.maxDataBytes ∧ (∀ k, k < len → r.dout.getD k 0 = s.din.getD k 0) ∧
      ∀ k, len ≤ k → r.dout.getD k 0 = 0 := by
  obtain ⟨u, r, hexec, -, -, hresponses, hfault, -, hlen, hlanes, hbits, habove⟩ :=
    decodeReturnsTheDataBits t (h.holds hc)
  rw [h.dbc_toNat hc] at hlen hbits habove
  rw [Nat.mul_div_cancel_left len (by decide)] at hlen habove
  refine ⟨u, r, hexec, hresponses, hfault, hlen, h.config ▸ hlanes, fun k hk => ?_, habove⟩
  refine getD_eq_of_dataBit_eq fun n hn => ?_
  have hlt : n < 8 * len := by omega
  exact (hbits n hlt).trans (h.cwGet_pos hlt)

/-- Settles O50: ENCODE commits the codeword of the bytes on DIN. -/
theorem decodeAfterEncodeReturnsTheData : Obligations.DecodeAfterEncodeReturnsTheData := by
  intro s len hc hlen
  obtain ⟨t, hencode, hcommit⟩ := commitsEncoding_of_admitted hlen
  obtain ⟨u, r, hdecode, hr⟩ := hcommit.exec_decode hc
  exact ⟨t, u, r, hencode, hdecode, hr⟩

/-- No command writes the build parameter (R201). -/
theorem exec_config {i : Instr} {s t : State} (h : exec i s = .next t) : t.config = s.config := by
  obtain ⟨hconfig, -, -⟩ | ⟨index, htoggle⟩ | ⟨len, -, hcommit⟩ := exec_block h
  · exact hconfig
  · exact htoggle.config
  · exact hcommit.config

/-- Settles O51: DIAG undoes the flip, so DECODE meets the codeword that ENCODE committed. -/
theorem dataSurvivesOneFlipAndDiag : Obligations.DataSurvivesOneFlipAndDiag := by
  intro s len i hc hlen hi
  obtain ⟨t, hencode, hcommit⟩ := commitsEncoding_of_admitted hlen
  have ht := hcommit.holds hc
  have hvalid : i < t.total := by rwa [State.total, hcommit.dbc_toNat hc]
  obtain ⟨u, v, hflip, hdiag, hcw, hdbc, -⟩ := diagRepairsEverySingleFlip t i ht (hcommit.consistent hc) hvalid
  have hconfig : v.config = t.config := (exec_config hdiag).trans (exec_config hflip)
  obtain ⟨x, r, hdecode, hresponses, hfault, hdoutLen, -, hbytes, -⟩ :=
    (hcommit.of_sameBlock ⟨hconfig, hcw, hdbc⟩).exec_decode hc
  exact ⟨t, u, v, x, r, hencode, hflip, hdiag, hdecode, hresponses, hfault, hdoutLen, hbytes⟩

/-! ## DECODE after FLIP (R163) -/

/-- `rank` inverts `pos` (R43). -/
theorem eq_pos_iff {i n : Nat} (hi : isDataIndex i = true) : i = pos n ↔ n = rank i := by
  rw [rank_eq_length_dataIndicesBelow hi]
  constructor
  · rintro rfl
    obtain ⟨-, hcount⟩ := pos_spec n
    exact hcount.symm
  · rintro rfl
    exact (pos_length_dataIndicesBelow hi).symm

/-- Settles O52: a reserved index is not one that the decoder reads, and a data index is the place of the data bit of
its rank. -/
theorem decodeSeesOnlyDataIndices : Obligations.DecodeSeesOnlyDataIndices := by
  intro s i hs hi
  have htoggle := togglesBit_setCw hi (plainResponse s.config)
  have ht := hs.of_togglesBit htoggle
  refine ⟨_, s.decoded, _, hs.exec_decode, execFlip_of_lt hs.nonempty hs.inv.fits hi, ht.exec_decode,
    fun hreserved => ?_, fun hdata n hn => ?_⟩
  · refine congrArg (dataResponse s.config) (extractData_congr (fun j hj => ?_) s.dbc.toNat)
    have hne : i ≠ j := by
      rintro rfl
      rw [isDataIndex, hreserved] at hj
      exact Bool.noConfusion hj
    rw [htoggle.cwGet hs, decide_eq_false hne, Bool.xor_false]
  · refine (ht.dataBit_decoded hn).trans ?_
    rw [htoggle.cwGet hs, ← hs.dataBit_decoded hn, dataBit]
    simp only [eq_pos_iff hdata]

end Sys2Proof.Machine
end

section
/-! PROOFS. Exceptions (R170 to R188): how a command ends, completed or with one of its faults; that a fault leaves
nothing behind; and that a block with the invariant never stops. -/

namespace Sys2Proof.Machine

/-! ## How a command ends (R170 to R175) -/

/-- The faults a command can raise (R171 to R173). -/
def raisableFaults : Instr → List FaultKind
  | .encode _ => [.invalidInput]
  | .diag | .flip _ => [.emptyObject, .indexOutOfRange]
  | .decode => [.emptyObject]

/-- From `s` to `t` a command completes, or it raises one of the faults `ks` and does nothing else (R70, R177). -/
def CompletesOrRaises (ks : List FaultKind) (s t : State) : Prop :=
  (∃ r, t.responses = s.responses ++ [r] ∧ r.fault = 0) ∨ ∃ k ∈ ks, t = s.addResponse (faultResponse s.config k)

theorem CompletesOrRaises.of_raise {ks : List FaultKind} (s : State) {k : FaultKind} (hk : k ∈ ks) :
    CompletesOrRaises ks s (s.addResponse (faultResponse s.config k)) := .inr ⟨k, hk, rfl⟩

theorem CompletesOrRaises.of_respond (ks : List FaultKind) {s u : State} {r : Response}
    (hu : u.responses = s.responses) (hr : r.fault = 0) : CompletesOrRaises ks s (u.addResponse r) :=
  .inl ⟨r, by rw [State.addResponse_responses, hu], hr⟩

/-- What the one response says of how the command ended: a code other than 0 is that of a fault taken. -/
theorem CompletesOrRaises.fault_eq_zero_or {ks : List FaultKind} {s t : State} {r : Response}
    (h : CompletesOrRaises ks s t) (hr : t.responses = s.responses ++ [r]) :
    r.fault = 0 ∨ ∃ k ∈ ks, r = faultResponse s.config k ∧ t = s.addResponse r := by
  obtain ⟨q, hq, hfault⟩ | ⟨k, hk, rfl⟩ := h
  · obtain rfl : r = q := by simpa using hr.symm.trans hq
    exact .inl hfault
  · obtain rfl : faultResponse s.config k = r := by simpa using hr
    exact .inr ⟨k, hk, rfl, rfl⟩

theorem execEncode_completesOrRaises {len : Nat} {s t : State} (h : execEncode len s = .next t) :
    CompletesOrRaises [.invalidInput] s t := by
  obtain ⟨-, rfl⟩ | ⟨-, rfl⟩ := execEncode_next h
  · exact .of_raise s (by decide)
  · exact .of_respond _ rfl rfl

theorem execFlip_completesOrRaises {index : Nat} {s t : State} (h : execFlip index s = .next t) :
    CompletesOrRaises [.emptyObject, .indexOutOfRange] s t := by
  obtain ⟨-, rfl⟩ | ⟨-, -, rfl⟩ | ⟨-, -, -, rfl⟩ := execFlip_next h
  · exact .of_raise s (by decide)
  · exact .of_raise s (by decide)
  · exact .of_respond _ rfl rfl

theorem execDiag_completesOrRaises {s t : State} (h : execDiag s = .next t) :
    CompletesOrRaises [.emptyObject, .indexOutOfRange] s t := by
  obtain ⟨-, rfl⟩ | ⟨-, -, hcorrect⟩ := execDiag_next h
  · exact .of_raise s (by decide)
  · obtain ⟨-, rfl⟩ | ⟨-, rfl⟩ | ⟨-, -, -, rfl⟩ | ⟨-, -, -, rfl⟩ := correct_next hcorrect
    · exact .of_respond _ rfl rfl
    · exact .of_respond _ rfl rfl
    · exact .of_raise s (by decide)
    · exact .of_respond _ rfl rfl

theorem execDecode_completesOrRaises {s t : State} (h : execDecode s = .next t) :
    CompletesOrRaises [.emptyObject] s t := by
  obtain ⟨-, rfl⟩ | ⟨-, -, rfl⟩ := execDecode_next h
  · exact .of_raise s (by decide)
  · exact .of_respond _ rfl rfl

/-- Each command completes or raises one of its own faults (R170, R175). -/
theorem exec_completesOrRaises {i : Instr} {s t : State} (h : exec i s = .next t) :
    CompletesOrRaises (raisableFaults i) s t := by
  cases i with
  | encode len => exact execEncode_completesOrRaises h
  | diag => exact execDiag_completesOrRaises h
  | decode => exact execDecode_completesOrRaises h
  | flip index => exact execFlip_completesOrRaises h

/-- A command whose response has FAULT != 0 did nothing but give the response of a fault (R177). -/
theorem exec_of_fault_ne_zero {i : Instr} {s t : State} {r : Response} (h : exec i s = .next t)
    (hr : t.responses = s.responses ++ [r]) (hfault : r.fault ≠ 0) :
    ∃ k ∈ raisableFaults i, r = faultResponse s.config k ∧ t = s.addResponse r :=
  ((exec_completesOrRaises h).fault_eq_zero_or hr).resolve_left hfault

/-- Settles O54: all that taking a fault does is to add its response. -/
theorem faultingCommandChangesNothing : Obligations.FaultingCommandChangesNothing := by
  intro s t i r h hr hfault
  obtain ⟨k, -, rfl, rfl⟩ := exec_of_fault_ne_zero h hr hfault
  exact ⟨⟨rfl, rfl, rfl⟩, ⟨rfl, rfl, rfl⟩, rfl, rfl, rfl⟩

/-- Settles O56: the codes of the faults that each command can raise. -/
theorem eachCommandRaisesOnlyItsFaults : Obligations.EachCommandRaisesOnlyItsFaults := by
  intro s t i r h hr
  have hcode : r.fault = 0 ∨ r.fault ∈ (raisableFaults i).map FaultKind.code := by
    obtain hzero | ⟨k, hk, rfl, -⟩ := (exec_completesOrRaises h).fault_eq_zero_or hr
    · exact .inl hzero
    · exact .inr (List.mem_map_of_mem hk)
  cases i <;> simpa [raisableFaults, FaultKind.code] using hcode

/-- Settles O53: the first test of the three commands is for an Empty block. -/
theorem emptyBlockRaisesEmptyObject : Obligations.EmptyBlockRaisesEmptyObject := by
  rintro s i hdbc (rfl | rfl | ⟨index, rfl⟩)
  all_goals exact needCodeword_empty hdbc

/-! ## The next command after a fault (R178) -/

theorem exec_answersOnce {i : Instr} {s t : State} (h : exec i s = .next t) : AnswersOnce s t := by
  cases i with
  | encode len => exact execEncode_answersOnce h
  | diag => exact execDiag_answersOnce h
  | decode => exact execDecode_answersOnce h
  | flip index => exact execFlip_answersOnce h

/-- A response given before a command changes neither its answer nor what it does (R28). -/
theorem exec_addResponse {j : Instr} {s u : State} (r : Response) (h : exec j s = .next u) :
    ∃ q, u.responses = s.responses ++ [q] ∧
      exec j (s.addResponse r) = .next { u with responses := (s.addResponse r).responses ++ [q] } := by
  obtain ⟨⟨-, hpending, hcuts⟩, -⟩ := exec_answersOnce h
  obtain ⟨q, hq, hexec⟩ := exec_ignoresInterface j s u (s.addResponse r).responses s.pending s.cuts h
  exact ⟨q, hq, hexec.trans (by rw [State.withInterface, ← hpending, ← hcuts])⟩

/-- Settles O55: the faulting command only gave a response, which no command reads. -/
theorem faultLeavesNoTrace : Obligations.FaultLeavesNoTrace := by
  intro s t u i j r h hr hfault hj
  obtain ⟨k, -, -, rfl⟩ := exec_of_fault_ne_zero h hr hfault
  exact exec_addResponse r hj

/-! ## The block never stops (R174, R177, R188) -/

/-- Settles O7: the word is decoded before the state is looked at. -/
theorem illegalWordRaisesIllegalCommand : Obligations.IllegalWordRaisesIllegalCommand := by
  intro s w d rest e hp hw
  rw [step, hp]
  simp only [hw]
  rfl

/-- Settles O11: with no host action waiting the step is the identity. -/
theorem idleBlockHoldsItsState : Obligations.IdleBlockHoldsItsState := by
  intro s hp
  rw [step, hp]

theorem needCodeword_goes_on {s : State} {body : Host.Outcome State Fault Refusal} (hfits : s.Fits)
    (hbody : ∃ t, body = .next t) : ∃ t, needCodeword s body = .next t := by
  by_cases hdbc : s.dbc = 0
  · exact ⟨_, needCodeword_empty hdbc⟩
  · rwa [needCodeword_of_fits hdbc hfits]

theorem execFlip_goes_on (index : Nat) {s : State} (hfits : s.Fits) : ∃ t, execFlip index s = .next t :=
  needCodeword_goes_on hfits (by split <;> exact ⟨_, rfl⟩)

/-- A codeword that fits the buffer is all that a command needs to go on. -/
theorem exec_goes_on (i : Instr) {s : State} (hfits : s.Fits) : ∃ t, exec i s = .next t := by
  cases i with
  | encode len => exact execEncode_goes_on len s
  | diag => exact needCodeword_goes_on hfits (correct_goes_on s.status s.syndrome s)
  | decode => exact needCodeword_goes_on hfits ⟨_, rfl⟩
  | flip index => exact execFlip_goes_on index hfits

/-- Settles O15: the invariant makes the codeword fit, so that commands go on, and so do an idle step, an illegal word
and both resets. -/
theorem invariantStatesNeverStop : Obligations.InvariantStatesNeverStop := by
  intro s hinv hoverlap
  match hp : s.pending with
  | [] => exact ⟨s, idleBlockHoldsItsState s hp⟩
  | .command w d :: rest =>
    match hw : decode w with
    | .ok i =>
      rw [stepRunsThePresentedCommand s w d rest i hp hw]
      exact exec_goes_on i hinv.fits
    | .error e => exact ⟨_, illegalWordRaisesIllegalCommand s w d rest e hp hw⟩
  | .reset :: rest => exact ⟨_, by rw [step, hp]⟩
  | .resetDuring w d :: rest => exact ⟨_, by rw [step, hp]⟩
  | .overlap w v :: rest =>
    rw [State.overlapNext, hp] at hoverlap
    exact Bool.noConfusion hoverlap

end Sys2Proof.Machine
end

section
/-! PROOFS. Reset and hazards (R200 to R208): what the two resets do to the block and to its interface, that overlapping
commands are refused, and that no step changes the build parameter. -/

namespace Sys2Proof.Machine

/-! ## Reset (R200, R201) -/

theorem step_of_reset {s : State} {rest : List HostAction} (hp : s.pending = .reset :: rest) :
    step s = .next (s.setPending rest).resetBlock := by
  rw [step, hp]

/-- Settles O8: the buffer after RST lists no byte, so each reads as the reset value; RST writes nothing beside the
block. -/
theorem resetEmptiesTheBlock : Obligations.ResetEmptiesTheBlock := by
  intro s rest hp
  exact ⟨_, step_of_reset hp, rfl, fun _ => rfl, rfl, rfl, rfl, rfl, rfl, rfl⟩

/-! ## Reset during a command (R208) -/

theorem step_of_resetDuring {s : State} {w : Word} {d : List Byte} {rest : List HostAction}
    (hp : s.pending = .resetDuring w d :: rest) : step s = .next (s.present d rest).resetDuringCommand := by
  rw [step, hp]

/-- Whatever the free value is, it is one response or none. -/
theorem State.resetDuringCommand_adds_at_most_one_response (s : State) :
    s.resetDuringCommand.responses = s.responses ∨ ∃ r, s.resetDuringCommand.responses = s.responses ++ [r] := by
  rw [State.resetDuringCommand_responses]
  cases Config.cutResponse s.cuts with
  | none => exact .inl (List.append_nil _)
  | some r => exact .inr ⟨r, rfl⟩

/-- Settles O9: the block is left as by RST between commands, and the cut command's response is the free value or
missing. -/
theorem resetDuringACommandEmptiesTheBlock : Obligations.ResetDuringACommandEmptiesTheBlock := by
  intro s w d rest hp
  exact ⟨_, step_of_resetDuring hp, rfl, fun _ => rfl, rfl, rfl, rfl,
    (s.present d rest).resetDuringCommand_adds_at_most_one_response⟩

/-! ## Overlapping commands (R206) -/

/-- Settles O10: the step refuses the overlap before it looks at either word. -/
theorem overlappingCommandsAreRefused : Obligations.OverlappingCommandsAreRefused := by
  intro s w v rest hp
  rw [step, hp]

/-! ## The build parameter (R201) -/

/-- Settles O16: none of the things a step can do to the block writes the build parameter. -/
theorem noStepChangesTheConfiguration : Obligations.NoStepChangesTheConfiguration := by
  intro s t h
  obtain ⟨hconfig, -, -⟩ | ⟨index, htoggle⟩ | ⟨w, d, rest, len, -, -, hcommit⟩ | ⟨⟨hconfig, -, -⟩, -⟩ := step_block h
  · exact hconfig
  · exact htoggle.config
  · exact hcommit.config
  · exact hconfig

end Sys2Proof.Machine
end
